-- ==== Sys2Proof/Word.lean ====
section
/-! DEFINITION. The words of the codec core: every value the spec gives a width (00_scope.md R8, R11, R12). -/

namespace Sys2Proof

/-- `Bits8`: one byte of a block (00_scope.md R12). -/
abbrev Byte := BitVec 8

/-- `Bits5`: one of the values `v0..v7` a block decomposes into, and an index of the symbol ROM (00_scope.md R12, R16). -/
abbrev Value := BitVec 5

/-- `Bits24`: one symbol, the three bytes of its slot with the first stored byte in bits [23:16]
(00_scope.md R8, 20_memory.md R43). -/
abbrev Symbol := BitVec 24

/-- `Bits40`: one block, byte `b0` in bits [39:32] (20_memory.md R42). -/
abbrev Block := BitVec 40

/-- `Bits32`: a host data word, and a command word (00_scope.md R11, 30_encoding.md R60). -/
abbrev Word := BitVec 32

/-- `Bits8`: a host byte address (00_scope.md R11, 20_memory.md R40). -/
abbrev Addr := BitVec 8

/-- A lane `k`, 0 to 7 (00_scope.md R17). -/
abbrev Lane := Fin 8

end Sys2Proof
end

