-- ==== Sys2Proof/Config.lean ====
section
/-! DEFINITION. What one build of the hardware fixes and the spec leaves open: the 32 symbols of the alphabet and the
padding symbol (00_scope.md R9, R10; 92_eei_decisions.md D3, D4). -/

namespace Sys2Proof

/-- The contents of the symbol ROM: `ALPHABET[0..31]` and the constant `PAD_SYMBOL` (10_state.md R22). -/
structure Rom where
  alphabet : Vector Symbol 32
  pad      : Symbol
deriving DecidableEq, Repr

/-- What the spec requires of the open parameters: the 32 entries are pairwise distinct (00_scope.md R9 (a)) and the
padding symbol is none of them (R10). -/
abbrev Rom.Legal (r : Rom) : Prop :=
  (∀ i j : Fin 32, r.alphabet[i] = r.alphabet[j] → i = j) ∧ ∀ i : Fin 32, r.alphabet[i] ≠ r.pad

/-- A ROM that shows `Rom.Legal` can be met. It is no alphabet of the hardware: it serves only to show that the type
`LegalRom` has a member, which Lean asks for before it accepts the constant `Config.rom` without a value. -/
def Rom.someLegal : Rom :=
  { alphabet := Vector.ofFn fun i => BitVec.ofNat 24 i.val, pad := 32 }

theorem Rom.someLegal_legal : Rom.someLegal.Legal := by decide

/-- A ROM together with what the spec requires of it. -/
structure LegalRom where
  rom   : Rom := Rom.someLegal
  legal : rom.Legal := by exact Rom.someLegal_legal
deriving Inhabited

/-- DESIGN CHOICE (log entry 5), safe. The OPEN parameters `ALPHABET` and `PAD_SYMBOL` of 00_scope.md R9 and R10: a
constant with no value, about which nothing can be proved but that it is legal. The ROM holds it from power-on
(70_reset_and_hazards.md R201). -/
opaque Config.rom : LegalRom

end Sys2Proof
end

