-- ==== Sys2Proof/Syntax.lean ====
section
/-! DEFINITION. The commands of `codec_top`, one constructor for each row of spec/opcode_table.json
(30_encoding.md R63). -/

namespace Sys2Proof

/-- A command (30_encoding.md R63, R68). All operands but these are implicit (R62). -/
inductive Instr where
  /-- NOP (44_control.md R170). -/
  | nop
  /-- ENC L (42_encoder.md R124): `len` is the field LEN, [6:4] of the word. -/
  | enc (len : BitVec 3)
  /-- DEC (43_decoder.md R154). -/
  | dec
  /-- SLICE (41_bit_slicer.md R103). -/
  | slice
  /-- PACK (41_bit_slicer.md R104). -/
  | pack
  /-- ROMF K (40_symbol_rom.md R84). -/
  | romf (lane : Lane)
  /-- ROMI K (40_symbol_rom.md R85). -/
  | romi (lane : Lane)
deriving DecidableEq, Repr

end Sys2Proof
end

