-- ==== Sys2Proof/WellFormed.lean ====
section
/-! DEFINITION. Which terms of `Instr` are commands of the hardware (30_encoding.md R61, R66). -/

namespace Sys2Proof

/-- LEN is a block length, 1 to 5 (30_encoding.md R61); 0, 6 and 7 are illegal (R66). -/
def lenInRange (len : BitVec 3) : Bool :=
  1 ≤ len.toNat && len.toNat ≤ 5

/-- The well-formed commands: `enc L` only for L in 1..5. A lane is 0 to 7 by its type. -/
def Instr.wf : Instr → Bool
  | .nop => true
  | .enc len => lenInRange len
  | .dec => true
  | .slice => true
  | .pack => true
  | .romf _ => true
  | .romi _ => true

end Sys2Proof
end

