-- ==== Sys2Proof/Decode.lean ====
section
/-! DEFINITION. The command word: its fields, which words are legal, the decoder and the encoder (30_encoding.md). -/

namespace Sys2Proof

/-- OP = d[3:0] (30_encoding.md R61). -/
def opField (d : Word) : BitVec 4 := d.extractLsb' 0 4

/-- LEN = d[6:4] (30_encoding.md R61). -/
def lenField (d : Word) : BitVec 3 := d.extractLsb' 4 3

/-- LANE = d[9:7] (30_encoding.md R61). -/
def laneField (d : Word) : BitVec 3 := d.extractLsb' 7 3

/-- RSV = d[31:10] (30_encoding.md R61). -/
def rsvField (d : Word) : BitVec 22 := d.extractLsb' 10 22

/-- The lane the field LANE names; used as a number by zero-extension (30_encoding.md R62). -/
def laneOperand (d : Word) : Lane := ⟨(laneField d).toNat, (laneField d).isLt⟩

/-- The legality predicate `legal(d)` (30_encoding.md R65). -/
def legal (d : Word) : Bool :=
  rsvField d == 0 &&
    match (opField d).toNat with
    | 0 | 2 | 3 | 4 => lenField d == 0 && laneField d == 0
    | 1 => lenInRange (lenField d) && laneField d == 0
    | 5 | 6 => lenField d == 0
    | _ => false

/-- Why a word is illegal. The machine records none of this: it writes CODE 7 whatever the reason
(44_control.md R171, 60_exceptions.md R182). DESIGN CHOICE (log entry 8), safe: the names, and which of several reasons
is named. -/
inductive IllegalReason where
  /-- RSV is not 0. -/
  | reservedBits
  /-- OP is 0x7 to 0xF (30_encoding.md R67). -/
  | reservedOpcode
  /-- LANE is not 0 and the opcode has no lane. -/
  | strayLane
  /-- LEN is not 0 and the opcode has no length. -/
  | strayLen
  /-- ENC with LEN 0, 6 or 7 (30_encoding.md R66). -/
  | lenOutOfRange
deriving DecidableEq, Repr

/-- What a word decodes to: exactly one command, or illegal (30_encoding.md R68). -/
inductive Decoded where
  | command (i : Instr)
  | illegal (why : IllegalReason)
deriving DecidableEq, Repr

/-- The first reason for which an illegal word is illegal (log entry 8). -/
def illegalReason (d : Word) : IllegalReason :=
  if rsvField d ≠ 0 then .reservedBits
  else if 7 ≤ (opField d).toNat then .reservedOpcode
  else if (opField d).toNat < 5 ∧ laneField d ≠ 0 then .strayLane
  else if (opField d).toNat = 1 then .lenOutOfRange
  else .strayLen

/-- `decode(d)` (30_encoding.md R68): total on the 32-bit words. -/
def decode (d : Word) : Decoded :=
  if legal d then
    match (opField d).toNat with
    | 0 => .command .nop
    | 1 => .command (.enc (lenField d))
    | 2 => .command .dec
    | 3 => .command .slice
    | 4 => .command .pack
    | 5 => .command (.romf (laneOperand d))
    | 6 => .command (.romi (laneOperand d))
    | _ => .illegal .reservedOpcode
  else .illegal (illegalReason d)

/-- The command word of a well-formed command (30_encoding.md R64, R69). -/
def encode : Instr → Word
  | .nop => 0x00000000
  | .enc len => (len.setWidth 32 <<< 4) ||| 0x1
  | .dec => 0x00000002
  | .slice => 0x00000003
  | .pack => 0x00000004
  | .romf lane => (BitVec.ofNat 32 lane.val <<< 7) ||| 0x5
  | .romi lane => (BitVec.ofNat 32 lane.val <<< 7) ||| 0x6

/-- The command word of a row of the opcode table whose lowest `nbits` bits are those of `w`, every bit above being 0
(log entry 10). A command is one 32-bit data word (30_encoding.md R60), so no byte order comes in. -/
def tableWord (nbits w : Nat) : Word := BitVec.ofNat 32 (w % 2 ^ nbits)

/-- The command the decoder reads from a word of the opcode table; `none` where it is illegal. -/
def decodeTableWord (nbits w : Nat) : Option Instr :=
  match decode (tableWord nbits w) with
  | .command i => some i
  | .illegal _ => none

end Sys2Proof
end

