-- ==== Sys2Proof/Machine/State.lean ====
section
/-! DEFINITION. The architectural state of `codec_top` (10_state.md R20 to R30), the events its surroundings still have
for it, and its state after reset (70_reset_and_hazards.md R200, R201). -/

namespace Sys2Proof.Machine

/-- What reaches `codec_top` from outside, each one atomic step. -/
inductive Event where
  /-- `BusWrite(a, d)` (20_memory.md R44). -/
  | write (a : Addr) (d : Word)
  /-- `BusRead(a)` (20_memory.md R45). -/
  | read (a : Addr)
  /-- Reset (70_reset_and_hazards.md R200). DESIGN CHOICE (log entry 4): it comes between two accesses. -/
  | reset
deriving DecidableEq, Repr

/-- Why the machine stops with a fault: never. "No condition traps" and "no error kind is a fault, a stuck state or a
refusal" (60_exceptions.md R185), so there is no constructor; this is safe or unsafe in no case, since nothing raises it
(log entry 11). -/
inductive Fault where
deriving DecidableEq, Repr

/-- Why the machine gives no meaning. -/
inductive Refusal where
  /-- The command `mnemonic` has no meaning in the model; raised by an arm of `exec` alone, and by none of them now.
  Safe: the model would stop where the hardware goes on. -/
  | notModelled (mnemonic : String)
deriving DecidableEq, Repr

/-- The state: everything 10_state.md R20 lists, and the two fields of the model's own. -/
structure State where
  /-- `ALPHABET` and `PAD_SYMBOL` (10_state.md R22). -/
  rom : Rom
  /-- DIN, the input block (10_state.md R23). -/
  din : Block
  /-- VAL[0..7] (10_state.md R24). -/
  val : Vector Value 8
  /-- SIN[0..7], the input group (10_state.md R25). -/
  sin : Vector Symbol 8
  /-- SOUT[0..7], the output group (10_state.md R26). -/
  sout : Vector Symbol 8
  /-- DOUT, the output block (10_state.md R27). -/
  dout : Block
  /-- NBYTES, the count of valid bytes in DOUT (10_state.md R28). -/
  nbytes : BitVec 3
  /-- CODE, the status code of the last command (10_state.md R29). -/
  code : BitVec 3
  /-- SCLASS, the class of the last symbol ROMI looked up (10_state.md R30). -/
  sclass : BitVec 2
  /-- The model's own (log entry 1): the events still to come, oldest first. -/
  events : List Event
  /-- The model's own (log entry 3): the words the host's bus reads returned, oldest first. -/
  reads : List Word
deriving DecidableEq, Repr

/-- The machine right after reset: every interface register is 0 (70_reset_and_hazards.md R200, 10_state.md R34), the ROM
holds what it holds from power-on (R201), and nothing has been asked of it yet. -/
def State.reset : State where
  rom := Config.rom.rom
  din := 0
  val := Vector.replicate 8 0
  sin := Vector.replicate 8 0
  sout := Vector.replicate 8 0
  dout := 0
  nbytes := 0
  code := 0
  sclass := 0
  events := []
  reads := []

end Sys2Proof.Machine
end

