-- ==== Sys2Proof/Machine/Operands.lean ====
section
/-! DEFINITION. Operand forms: the bytes of a block (20_memory.md R42, R54), and which register a host address names
(10_state.md R32, 20_memory.md R44 to R46, R49). -/

namespace Sys2Proof.Machine

/-- Byte `bj` of a block: `W[39-8j : 32-8j]`, so `b0 = W[39:32]` (10_state.md R23, 41_bit_slicer.md R101). -/
def blockByte (w : Block) (j : Fin 5) : Byte := w.extractLsb' (32 - 8 * j.val) 8

/-- The bytes `b0..b4` of a block. -/
def bytesOfBlock (w : Block) : Vector Byte 5 := Vector.ofFn (blockByte w)

/-- The block `b0 ++ b1 ++ b2 ++ b3 ++ b4` (20_memory.md R42). -/
def blockOfBytes (b : Vector Byte 5) : Block := b[0] ++ b[1] ++ b[2] ++ b[3] ++ b[4]

/-- The first five bytes of a list as a block, a missing byte as 0: `cj = (j < nb) ? bj : 0` (43_decoder.md R154). -/
def blockOfList (bs : List Byte) : Block := blockOfBytes (Vector.ofFn fun j => bs.getD j.val 0)

/-- The registers of the host register space (10_state.md R32). -/
inductive Reg where
  | cmd
  | status
  | dinHi
  | dinLo
  | doutHi
  | doutLo
  | val (k : Lane)
  | sin (k : Lane)
  | sout (k : Lane)
  | unmapped
deriving DecidableEq, Repr

/-- The word address `a & 0xFC`: address bits [1:0] are ignored (20_memory.md R46). -/
def wordAddress (a : Addr) : Addr := a &&& 0xFC

/-- The register an address names, by its word address (10_state.md R32, 20_memory.md R44, R45, R49). -/
def regAt (a : Addr) : Reg :=
  let wa := (wordAddress a).toNat
  if wa = 0x00 then .cmd
  else if wa = 0x04 then .status
  else if wa = 0x08 then .dinHi
  else if wa = 0x0C then .dinLo
  else if wa = 0x10 then .doutHi
  else if wa = 0x14 then .doutLo
  else if h : 0x20 ≤ wa ∧ wa < 0x40 then .val ⟨(wa - 0x20) / 4, by omega⟩
  else if h : 0x40 ≤ wa ∧ wa < 0x60 then .sin ⟨(wa - 0x40) / 4, by omega⟩
  else if h : 0x60 ≤ wa ∧ wa < 0x80 then .sout ⟨(wa - 0x60) / 4, by omega⟩
  else .unmapped

/-- The address of each register the map lists (10_state.md R32, 30_encoding.md R70); `none` for the unmapped words. -/
def Reg.address : Reg → Option Addr
  | .cmd => some 0x00
  | .status => some 0x04
  | .dinHi => some 0x08
  | .dinLo => some 0x0C
  | .doutHi => some 0x10
  | .doutLo => some 0x14
  | .val k => some (BitVec.ofNat 8 (0x20 + 4 * k.val))
  | .sin k => some (BitVec.ofNat 8 (0x40 + 4 * k.val))
  | .sout k => some (BitVec.ofNat 8 (0x60 + 4 * k.val))
  | .unmapped => none

end Sys2Proof.Machine
end

