-- ==== Sys2Proof/Machine/Flags.lean ====
section
/-! DEFINITION. The status fields: the error kinds and their codes (60_exceptions.md R180, R181), the classes of the
inverse lookup (10_state.md R30), and the STATUS word (10_state.md R31). -/

namespace Sys2Proof.Machine

/-- The error kinds (60_exceptions.md R181). No kind carries anything else (R182). -/
inductive ErrorKind where
  | malformedLength
  | invalidSymbol
  | misplacedPadding
  | invalidPaddingCount
  | illegalCommand
deriving DecidableEq, Repr

/-- `code(e)` (60_exceptions.md R180). -/
def ErrorKind.code : ErrorKind → BitVec 3
  | .malformedLength => 1
  | .invalidSymbol => 2
  | .misplacedPadding => 3
  | .invalidPaddingCount => 4
  | .illegalCommand => 7

/-- CODE 0, success (60_exceptions.md R180). -/
def codeOk : BitVec 3 := 0

/-- What the inverse lookup answers (40_symbol_rom.md R81). -/
inductive Lookup where
  | hit (i : Value)
  | pad
  | miss
deriving DecidableEq, Repr

/-- The number SCLASS holds for a class: 0 Hit, 1 Pad, 2 Miss (10_state.md R30). -/
def Lookup.sclass : Lookup → BitVec 2
  | .hit _ => 0
  | .pad => 1
  | .miss => 2

/-- `STATUS = zext_32(SCLASS ++ 0b0 ++ NBYTES ++ 0b0 ++ CODE)` (10_state.md R31). -/
def State.statusWord (s : State) : Word :=
  (s.sclass ++ (0 : BitVec 1) ++ s.nbytes ++ (0 : BitVec 1) ++ s.code).setWidth 32

end Sys2Proof.Machine
end

