-- ==== Sys2Proof/Machine/Ops.lean ====
section
/-! DEFINITION. The shared operations on the registers: what a bus read returns, what a bus write to a data register
stores, how an error is reported, and reset. -/

namespace Sys2Proof.Machine

/-- The word a read of a register returns (20_memory.md R45); bits outside the register's field read 0. -/
def State.regWord (s : State) : Reg → Word
  | .cmd => 0
  | .status => s.statusWord
  | .dinHi => (s.din.extractLsb' 32 8).setWidth 32
  | .dinLo => s.din.extractLsb' 0 32
  | .doutHi => (s.dout.extractLsb' 32 8).setWidth 32
  | .doutLo => s.dout.extractLsb' 0 32
  | .val k => s.val[k].setWidth 32
  | .sin k => s.sin[k].setWidth 32
  | .sout k => s.sout[k].setWidth 32
  | .unmapped => 0

/-- `BusRead(a)` (20_memory.md R45). -/
def busRead (s : State) (a : Addr) : Word := s.regWord (regAt a)

/-- A bus write of `d` to a register other than CMD (20_memory.md R44): it stores the field's bits and drops the others
(10_state.md R35); the read-only registers and the unmapped words ignore it. A write to CMD stores nothing here: it
performs a command (`perform`). -/
def State.storeReg (s : State) (d : Word) : Reg → State
  | .dinHi => { s with din := d.extractLsb' 0 8 ++ s.din.extractLsb' 0 32 }
  | .dinLo => { s with din := s.din.extractLsb' 32 8 ++ d }
  | .val k => { s with val := s.val.set k (d.extractLsb' 0 5) }
  | .sin k => { s with sin := s.sin.set k (d.extractLsb' 0 24) }
  | .cmd | .status | .doutHi | .doutLo | .sout _ | .unmapped => s

/-- The machine has no trap (60_exceptions.md R185): in place of taking an exception, an illegal command writes
`CODE <- 7` and changes nothing else (44_control.md R171). There is nothing to return from (60_exceptions.md R186). -/
def State.reportIllegal (s : State) : State := { s with code := ErrorKind.illegalCommand.code }

/-- A failed DEC leaves no partial output: `DOUT <- 0; NBYTES <- 0; CODE <- code(e)` (43_decoder.md R154, R155). -/
def State.reportDecodeError (s : State) (e : ErrorKind) : State :=
  { s with dout := 0, nbytes := 0, code := e.code }

/-- Reset sets every interface register to 0 and leaves the ROM (70_reset_and_hazards.md R200, R201). What the host still
does and what it has read are the host's own (log entry 4). -/
def State.resetRegisters (s : State) : State :=
  { s with
    din := 0, val := Vector.replicate 8 0, sin := Vector.replicate 8 0, sout := Vector.replicate 8 0,
    dout := 0, nbytes := 0, code := codeOk, sclass := 0 }

end Sys2Proof.Machine
end

