-- ==== Sys2Proof/Machine/Control.lean ====
section
/-! DEFINITION. The command that uses no unit: NOP (44_control.md R170). The illegal command is `State.reportIllegal` in
Machine/Ops.lean (R171). -/

namespace Sys2Proof.Machine

/-- NOP: `CODE <- 0`; every other register is unchanged (44_control.md R170). -/
def execNop (s : State) : Host.Outcome State Fault Refusal := .next { s with code := codeOk }

end Sys2Proof.Machine
end

