-- ==== Sys2Proof/Machine/BitSlicer.lean ====
section
/-! DEFINITION. bit_slicer: 5 bytes to 8 five-bit values and back, and the commands SLICE and PACK (41_bit_slicer.md). -/

namespace Sys2Proof.Machine

/-- `slice(b0..b4)`, the document's formulas, each on 8-bit values and at most 31 (41_bit_slicer.md R100). -/
def slice (b : Vector Byte 5) : Vector Value 8 :=
  #v[ (b[0] >>> 3).setWidth 5,
      ((b[0] &&& 0x07) <<< 2 ||| b[1] >>> 6).setWidth 5,
      ((b[1] &&& 0x3E) >>> 1).setWidth 5,
      ((b[1] &&& 0x01) <<< 4 ||| b[2] >>> 4).setWidth 5,
      ((b[2] &&& 0x0F) <<< 1 ||| (b[3] &&& 0x80) >>> 7).setWidth 5,
      ((b[3] &&& 0x7C) >>> 2).setWidth 5,
      ((b[3] &&& 0x03) <<< 3 ||| (b[4] &&& 0xE0) >>> 5).setWidth 5,
      (b[4] &&& 0x1F).setWidth 5 ]

/-- A value as the 8-bit number the formulas of `pack` compute with (41_bit_slicer.md R101). -/
def wide (v : Value) : Byte := v.setWidth 8

/-- `pack(v0..v7)`, with the shifts computed on 8-bit values, which is what `& 0xFF` keeps (41_bit_slicer.md R101;
DEDUCED, log entry 13). -/
def pack (v : Vector Value 8) : Vector Byte 5 :=
  #v[ wide v[0] <<< 3 ||| wide v[1] >>> 2,
      (wide v[1] &&& 0x03) <<< 6 ||| wide v[2] <<< 1 ||| wide v[3] >>> 4,
      (wide v[3] &&& 0x0F) <<< 4 ||| wide v[4] >>> 1,
      (wide v[4] &&& 0x01) <<< 7 ||| wide v[5] <<< 2 ||| wide v[6] >>> 3,
      (wide v[6] &&& 0x07) <<< 5 ||| wide v[7] ]

/-- SLICE: `VAL[0..7] <- slice(DIN); CODE <- 0` (41_bit_slicer.md R103). -/
def execSlice (s : State) : Host.Outcome State Fault Refusal :=
  .next { s with val := slice (bytesOfBlock s.din), code := codeOk }

/-- PACK: `DOUT <- pack(VAL[0..7]); NBYTES <- 5; CODE <- 0` (41_bit_slicer.md R104). -/
def execPack (s : State) : Host.Outcome State Fault Refusal :=
  .next { s with dout := blockOfBytes (pack s.val), nbytes := 5, code := codeOk }

end Sys2Proof.Machine
end

