-- ==== Sys2Proof/Machine/SymbolRom.lean ====
section
/-! DEFINITION. symbol_rom: the forward and the inverse lookup, and the commands ROMF and ROMI (40_symbol_rom.md). -/

namespace Sys2Proof.Machine

/-- `rom_fwd(i) = MemRead(ROM, i, 3) = ALPHABET[i]`; every 5-bit index is valid (40_symbol_rom.md R80, R83,
20_memory.md R41). -/
def romFwd (r : Rom) (i : Value) : Symbol := r.alphabet[i.toFin]

/-- `rom_inv(s)`: all 24 bits are compared (40_symbol_rom.md R81, R82). The index is unique in a legal ROM; in any other
the lowest is taken (log entry 6). -/
def romInv (r : Rom) (s : Symbol) : Lookup :=
  match (List.finRange 32).find? (fun i => r.alphabet[i] == s) with
  | some i => .hit (BitVec.ofFin i)
  | none => if s = r.pad then .pad else .miss

/-- ROMF K: `SOUT[K] <- rom_fwd(VAL[K]); CODE <- 0` (40_symbol_rom.md R84). -/
def execRomf (k : Lane) (s : State) : Host.Outcome State Fault Refusal :=
  .next { s with sout := s.sout.set k (romFwd s.rom s.val[k]), code := codeOk }

/-- ROMI K: SCLASS is the class of SIN[K], VAL[K] its index on a Hit only, CODE 0 in all three cases
(40_symbol_rom.md R85). -/
def execRomi (k : Lane) (s : State) : Host.Outcome State Fault Refusal :=
  let found := romInv s.rom s.sin[k]
  .next { s with
    val := match found with
      | .hit i => s.val.set k i
      | .pad => s.val
      | .miss => s.val
    sclass := found.sclass
    code := codeOk }

end Sys2Proof.Machine
end

