-- ==== Sys2Proof/Machine/Decoder.lean ====
section
/-! DEFINITION. base32_decoder: one group of 8 symbols to 1 to 5 bytes or an error kind, and the command DEC
(43_decoder.md R140 to R149, R154, R155). -/

namespace Sys2Proof.Machine

/-- The scan of a group, lane 0 first: the values of the Hits, or the error of the first lane that raises. A Miss raises
InvalidSymbol whether or not padding has started (43_decoder.md R141); a Hit after a Pad raises MisplacedPadding (R142);
the lowest such lane decides (R143). -/
def scanGroup (r : Rom) : List Symbol → (padStarted : Bool) → Except ErrorKind (List Value)
  | [], _ => .ok []
  | s :: rest, padStarted =>
    match romInv r s with
    | .miss => .error .invalidSymbol
    | .pad => scanGroup r rest true
    | .hit i =>
      if padStarted then .error .misplacedPadding
      else
        match scanGroup r rest false with
        | .ok v => .ok (i :: v)
        | .error e => .error e

/-- The legal padding counts are 0, 1, 3, 4 and 6 (43_decoder.md R144). -/
def legalPadding (npad : Nat) : Bool := [0, 1, 3, 4, 6].contains npad

/-- The byte count `nb` of a group with `m` meaningful values (43_decoder.md R145). The table has no other row; the 0 there
is never reached (DESIGN CHOICE, log entry 14). -/
def byteCount : Nat → Nat
  | 8 => 5
  | 7 => 4
  | 5 => 3
  | 4 => 2
  | 2 => 1
  | _ => 0

/-- `u_k = (k < m) ? v_k : 0`: the values of the Pad lanes are taken as 0 (43_decoder.md R147). -/
def padValues (v : List Value) : Vector Value 8 := Vector.ofFn fun k => v.getD k.val 0

/-- `decode_group(s0..s7)` (43_decoder.md R149): the scan, then the padding count, then the first `nb` bytes of the inverse
packing; the bits beyond them are dropped without an error (R148). -/
def decodeGroup (r : Rom) (g : Vector Symbol 8) : Except ErrorKind (List Byte) :=
  match scanGroup r g.toList false with
  | .error e => .error e
  | .ok v =>
    if legalPadding (8 - v.length) then .ok ((pack (padValues v)).toList.take (byteCount v.length))
    else .error .invalidPaddingCount

/-- DEC: on success DOUT holds the bytes from b0 and 0 beyond them, NBYTES their count, CODE 0; on an error
`DOUT <- 0; NBYTES <- 0; CODE <- code(e)` (43_decoder.md R154, R155). -/
def execDec (s : State) : Host.Outcome State Fault Refusal :=
  .next <|
    match decodeGroup s.rom s.sin with
    | .ok bs => { s with dout := blockOfList bs, nbytes := BitVec.ofNat 3 bs.length, code := codeOk }
    | .error e => s.reportDecodeError e

end Sys2Proof.Machine
end

