-- ==== Sys2Proof/Machine/Encoder.lean ====
section
/-! DEFINITION. base32_encoder: one block of 1 to 5 bytes to one group of 8 symbols, and the command ENC
(42_encoder.md R120 to R125). -/

namespace Sys2Proof.Machine

/-- `m(ℓ)`, the meaningful-value count of a block of ℓ bytes (42_encoder.md R120, R121). The table has no row outside
1 to 5; the 0 there is never used by a command (DESIGN CHOICE, log entry 14). -/
def meaningfulCount : Nat → Nat
  | 1 => 2
  | 2 => 4
  | 3 => 5
  | 4 => 7
  | 5 => 8
  | _ => 0

/-- A short block is zero-extended: `cj = (j < ℓ) ? bj : 0` (42_encoder.md R122, R123). -/
def zeroExtend (b : Vector Byte 5) (len : Nat) : Vector Byte 5 :=
  Vector.ofFn fun j => if j.val < len then b[j] else 0

/-- `encode_block(b0..b4, ℓ)` (42_encoder.md R123). -/
def encodeBlock (r : Rom) (b : Vector Byte 5) (len : Nat) : Vector Symbol 8 :=
  let v := slice (zeroExtend b len)
  Vector.ofFn fun k => if k.val < meaningfulCount len then romFwd r v[k] else r.pad

/-- ENC L: `SOUT[0..7] <- encode_block(DIN, L); CODE <- 0` (42_encoder.md R124). With LEN 0, 6 or 7 the command is illegal
and only CODE is written (R125); the decoder gives no such term (DEDUCED, log entry 7). -/
def execEnc (len : BitVec 3) (s : State) : Host.Outcome State Fault Refusal :=
  .next <|
    if lenInRange len then
      { s with sout := encodeBlock s.rom (bytesOfBlock s.din) len.toNat, code := codeOk }
    else s.reportIllegal

end Sys2Proof.Machine
end

