-- ==== Sys2Proof/Machine/Dispatch.lean ====
section
/-! DEFINITION. One arm per command: `perform(d)` after decoding (44_control.md R172). -/

namespace Sys2Proof.Machine

def exec (i : Instr) (s : State) : Host.Outcome State Fault Refusal :=
  match i with
  | .nop => Sys2Proof.Machine.execNop s
  | .enc len => Sys2Proof.Machine.execEnc len s
  | .dec => Sys2Proof.Machine.execDec s
  | .slice => Sys2Proof.Machine.execSlice s
  | .pack => Sys2Proof.Machine.execPack s
  | .romf lane => Sys2Proof.Machine.execRomf lane s
  | .romi lane => Sys2Proof.Machine.execRomi lane s

end Sys2Proof.Machine
end

