-- ==== Sys2Proof/Machine/Bus.lean ====
section
/-! DEFINITION. What one event does: a command, a bus access or reset (20_memory.md R44, R45, 44_control.md R172,
70_reset_and_hazards.md R200). -/

namespace Sys2Proof.Machine

/-- `perform(d)` (44_control.md R172): legality comes first (60_exceptions.md R184), and an illegal word does nothing but
write CODE 7 (44_control.md R171). -/
def perform (d : Word) (s : State) : Host.Outcome State Fault Refusal :=
  match decode d with
  | .command i => exec i s
  | .illegal _ => .next s.reportIllegal

/-- `BusWrite(a, d)` (20_memory.md R44). -/
def busWrite (a : Addr) (d : Word) (s : State) : Host.Outcome State Fault Refusal :=
  match regAt a with
  | .cmd => perform d s
  | r => .next (s.storeReg d r)

/-- A bus read changes no register (20_memory.md R45, R48); the host has its word (log entry 3). -/
def State.recordRead (s : State) (a : Addr) : State := { s with reads := s.reads ++ [busRead s a] }

/-- The one atomic step of each event. -/
def State.handle (s : State) : Event → Host.Outcome State Fault Refusal
  | .write a d => busWrite a d s
  | .read a => .next (s.recordRead a)
  | .reset => .next s.resetRegisters

end Sys2Proof.Machine
end

