-- ==== Sys2Proof/Machine/Step.lean ====
section
/-! DEFINITION. One step of the machine: the oldest event that is still to come. -/

namespace Sys2Proof.Machine

/-- The host's accesses take effect one at a time, in its program order (20_memory.md R51). With none left the hardware is
idle and holds its registers (60_exceptions.md R192; DEDUCED, log entry 2). -/
def step (s : State) : Host.Outcome State Fault Refusal :=
  match s.events with
  | [] => .next s
  | e :: rest => { s with events := rest }.handle e

/-- The state in which the host's next access writes that command word to CMD: `step` performs it next (log entry 9). -/
def State.withFetchWord (s : State) (nbits w : Nat) : State :=
  { s with events := .write 0x00 (tableWord nbits w) :: s.events }

end Sys2Proof.Machine
end

