-- ==== Sys2Proof/Machine/Buffer.lean ====
section
/-! DEFINITION. The buffer-level reference functions Encode and Decode (42_encoder.md R126 to R130, 43_decoder.md R150 to
R153). They belong to the host: the hardware does one block or one group a command (00_scope.md R3, R6). -/

namespace Sys2Proof.Machine

/-- The five bytes of `x` from position `j`, a missing byte as 0: "(x[j] or 0)" (42_encoder.md R128). -/
def blockAt (x : List Byte) (j : Nat) : Vector Byte 5 := Vector.ofFn fun k => x.getD (j + k.val) 0

/-- `Encode(x)` (42_encoder.md R126 to R128): the groups of the complete blocks in order, then the tail's group if there is
a tail. -/
def encodeBuffer (r : Rom) (x : List Byte) : List Symbol :=
  let q := x.length / 5
  let l := x.length % 5
  let out := (List.range q).flatMap fun i => (encodeBlock r (blockAt x (5 * i)) 5).toList
  if l = 0 then out else out ++ (encodeBlock r (blockAt x (5 * q)) l).toList

/-- The group `t[j .. j+8)`. Decode only asks for groups that lie within `t`, so the 0 for a missing slot is never read
(DESIGN CHOICE, log entry 14). -/
def groupAt (t : List Symbol) (j : Nat) : Vector Symbol 8 := Vector.ofFn fun k => t.getD (j + k.val) 0

/-- The bytes of the first `n` groups of `t`, or the error of the first group that raises one (43_decoder.md R151). -/
def decodeGroups (r : Rom) (t : List Symbol) : Nat → Except ErrorKind (List Byte)
  | 0 => .ok []
  | n + 1 =>
    match decodeGroups r t n with
    | .error e => .error e
    | .ok out =>
      match decodeGroup r (groupAt t (8 * n)) with
      | .error e => .error e
      | .ok bs => .ok (out ++ bs)

/-- `Decode(t)` (43_decoder.md R150, R151): the length is checked before any group. -/
def decodeBuffer (r : Rom) (t : List Symbol) : Except ErrorKind (List Byte) :=
  if t.length % 8 ≠ 0 then .error .malformedLength else decodeGroups r t (t.length / 8)

end Sys2Proof.Machine
end

