-- ==== Sys2Proof/Machine/HostLines.lean ====
section
/-! DEFINITION. The host's side: assembler forms, pseudo-instructions and their expansions (30_encoding.md R69 to R71), and
the sequences of accesses by which a host performs Encode and Decode (42_encoder.md R128, 43_decoder.md R151). -/

namespace Sys2Proof.Machine

/-- A command line of the assembler (30_encoding.md R69), cut into its mnemonic's characters, in either case, and its
decimal operands as numbers; any other operand value is refused. -/
def assemble (mnemonic : List Char) (operands : List Nat) : Option Instr :=
  let m := mnemonic.map Char.toLower
  match operands with
  | [] =>
    if m = ['n', 'o', 'p'] then some .nop
    else if m = ['d', 'e', 'c'] then some .dec
    else if m = ['s', 'l', 'i', 'c', 'e'] then some .slice
    else if m = ['p', 'a', 'c', 'k'] then some .pack
    else none
  | [n] =>
    if m = ['e', 'n', 'c'] then
      if 1 ≤ n ∧ n ≤ 5 then some (.enc (BitVec.ofNat 3 n)) else none
    else if m = ['r', 'o', 'm', 'f'] then
      if h : n < 8 then some (.romf ⟨n, h⟩) else none
    else if m = ['r', 'o', 'm', 'i'] then
      if h : n < 8 then some (.romi ⟨n, h⟩) else none
    else none
  | _ => none

/-- The words of a line: its maximal runs of characters other than a blank (DESIGN CHOICE, log entry 12). -/
def lineWords (line : List Char) : List (List Char) :=
  (line.foldr (fun c ws =>
    if c = ' ' then [] :: ws
    else
      match ws with
      | [] => [[c]]
      | w :: rest => (c :: w) :: rest) [[]]).filter (· ≠ [])

/-- A decimal numeral (DESIGN CHOICE, log entry 12: leading zeros are allowed). -/
def decimal (w : List Char) : Option Nat :=
  if w.all Char.isDigit then some (w.foldl (fun n c => 10 * n + (c.toNat - '0'.toNat)) 0) else none

/-- The text of one command line (30_encoding.md R69). -/
def assembleLine (line : List Char) : Option Instr :=
  match lineWords line with
  | [] => none
  | m :: operands =>
    match operands.mapM decimal with
    | some ns => assemble m ns
    | none => none

/-- A data operand of a host line: a number, `S<i>` or `P` (30_encoding.md R70). -/
inductive DataOperand where
  | word (w : Word)
  | entry (i : Fin 32)
  | padSymbol
deriving DecidableEq, Repr

/-- The word a data operand stands for: `S<i>` is `ALPHABET[i]`, `P` is `PAD_SYMBOL` (30_encoding.md R70). -/
def DataOperand.value (r : Rom) : DataOperand → Word
  | .word w => w
  | .entry i => r.alphabet[i].setWidth 32
  | .padSymbol => r.pad.setWidth 32

/-- A line of a host program (30_encoding.md R69 to R71). -/
inductive HostLine where
  | command (i : Instr)
  | wr (a : Addr) (d : DataOperand)
  | rd (a : Addr)
  | ldin (x0 x1 x2 x3 x4 : Byte)
  | lval (k : Lane) (v : DataOperand)
  | lsin (k : Lane) (s : DataOperand)
  | lgrp (s0 s1 s2 s3 s4 s5 s6 s7 : DataOperand)
deriving DecidableEq, Repr

/-- The address `VALk` (30_encoding.md R70). -/
def valAddr (k : Lane) : Addr := BitVec.ofNat 8 (0x20 + 4 * k.val)

/-- The address `SINk` (30_encoding.md R70). -/
def sinAddr (k : Lane) : Addr := BitVec.ofNat 8 (0x40 + 4 * k.val)

/-- The address `SOUTk` (30_encoding.md R70). -/
def soutAddr (k : Lane) : Addr := BitVec.ofNat 8 (0x60 + 4 * k.val)

/-- The bus steps of a line (30_encoding.md R69, R70): a command line is one `BusWrite(0x00, word)`. -/
def HostLine.expand (r : Rom) : HostLine → List Event
  | .command i => [.write 0x00 (encode i)]
  | .wr a d => [.write a (d.value r)]
  | .rd a => [.read a]
  | .ldin x0 x1 x2 x3 x4 =>
    [.write 0x08 (x0.setWidth 32),
     .write 0x0C (x1.setWidth 32 <<< 24 ||| x2.setWidth 32 <<< 16 ||| x3.setWidth 32 <<< 8 ||| x4.setWidth 32)]
  | .lval k v => [.write (valAddr k) (v.value r)]
  | .lsin k s => [.write (sinAddr k) (s.value r)]
  | .lgrp s0 s1 s2 s3 s4 s5 s6 s7 =>
    [.write (sinAddr 0) (s0.value r), .write (sinAddr 1) (s1.value r), .write (sinAddr 2) (s2.value r),
     .write (sinAddr 3) (s3.value r), .write (sinAddr 4) (s4.value r), .write (sinAddr 5) (s5.value r),
     .write (sinAddr 6) (s6.value r), .write (sinAddr 7) (s7.value r)]

/-- The bus steps of a list of lines, in order: each line follows the previous one (30_encoding.md R71). -/
def expandLines (r : Rom) (lines : List HostLine) : List Event := lines.flatMap (HostLine.expand r)

/-- The lines for one block of `len` bytes: `ldin`, `enc len`, then the reads of SOUT[0..7] (42_encoder.md R128). -/
def encodeBlockLines (b : Vector Byte 5) (len : Nat) : List HostLine :=
  .ldin b[0] b[1] b[2] b[3] b[4] :: .command (.enc (BitVec.ofNat 3 len)) ::
    (List.finRange 8).map fun k => .rd (soutAddr k)

/-- The lines by which a host performs Encode: each block in order, the tail last (42_encoder.md R128). -/
def encodeLines (x : List Byte) : List HostLine :=
  let q := x.length / 5
  let l := x.length % 5
  let out := (List.range q).flatMap fun i => encodeBlockLines (blockAt x (5 * i)) 5
  if l = 0 then out else out ++ encodeBlockLines (blockAt x (5 * q)) l

/-- The lines for one group: `lgrp`, `dec`, then the reads of STATUS, DOUT_HI and DOUT_LO (43_decoder.md R151). -/
def decodeGroupLines (g : Vector Symbol 8) : List HostLine :=
  let d := fun s : Symbol => DataOperand.word (s.setWidth 32)
  [.lgrp (d g[0]) (d g[1]) (d g[2]) (d g[3]) (d g[4]) (d g[5]) (d g[6]) (d g[7]), .command .dec,
   .rd 0x04, .rd 0x10, .rd 0x14]

/-- The lines for every group of a symbol-string whose length is a multiple of 8, unrolled (30_encoding.md R71). The host
looks at the answers afterwards (`gatherDecode`); DESIGN CHOICE (log entry 15). -/
def decodeLines (t : List Symbol) : List HostLine :=
  (List.range (t.length / 8)).flatMap fun g => decodeGroupLines (groupAt t (8 * g))

/-- What the host makes of the words it read, three a group (43_decoder.md R151): on a non-zero CODE it discards every byte
and reports the code, otherwise it appends the first NBYTES bytes of DOUT. -/
def gatherDecode : List Word → Except (BitVec 3) (List Byte)
  | st :: hi :: lo :: rest =>
    if st.extractLsb' 0 3 ≠ 0 then .error (st.extractLsb' 0 3)
    else
      match gatherDecode rest with
      | .error c => .error c
      | .ok bs =>
        let block : Block := hi.extractLsb' 0 8 ++ lo
        .ok ((bytesOfBlock block).toList.take (st.extractLsb' 4 3).toNat ++ bs)
  | _ => .ok []

end Sys2Proof.Machine
end

