-- ==== Sys2Proof/Safety.lean ====
section
/-! DEFINITION. What the machine keeps in every run (93_implementation_defined.md I13; 10_state.md R22, R27 to R30), and
what a run may never do (60_exceptions.md R185). -/

namespace Sys2Proof.Machine

/-- The ROM is one the spec allows (00_scope.md R9, R10). -/
def State.RomLegal (s : State) : Prop := s.rom.Legal

/-- The values a status field is never given do not stand in it: CODE is none of 1, 5, 6 (10_state.md R29), SCLASS is not 3
(R30), NBYTES is at most 5 (R28). -/
def State.StatusValuesLegal (s : State) : Prop :=
  s.code ≠ 1 ∧ s.code ≠ 5 ∧ s.code ≠ 6 ∧ s.sclass ≠ 3 ∧ s.nbytes.toNat ≤ 5

/-- The bytes of DOUT at positions NBYTES and above are 0 (10_state.md R27; PACK counts all five, R28). -/
def State.DoutZeroBeyondCount (s : State) : Prop :=
  ∀ j : Fin 5, s.nbytes.toNat ≤ j.val → blockByte s.dout j = 0

/-- The invariant of the machine. -/
def State.Inv (s : State) : Prop := s.RomLegal ∧ s.StatusValuesLegal ∧ s.DoutZeroBeyondCount

/-- `n` steps in a row (the host's accesses, one at a time, 20_memory.md R51). -/
def stepN : Nat → State → Host.Outcome State Fault Refusal
  | 0, s => .next s
  | n + 1, s =>
    match step s with
    | .next t => stepN n t
    | .fault r => .fault r
    | .refused r => .refused r

/-- The step from `s` does not end in a fault or a refusal. -/
def State.Goes (s : State) : Prop := ∃ t, step s = .next t

end Sys2Proof.Machine
end

