-- ==== Sys2Proof/Certificates/Slice0/Obligations.lean ====
section
/-! DEFINITION. The statements about the codec core, from the numbered rules of spec/. -/

open Sys2Proof Sys2Proof.Machine

/-! ## The command word -/

/-- 30_encoding.md R63, R64, R68: over all 2^32 words, a word decodes to a command exactly when the command is well-formed
and the word is its encoding. So decoding an encoded command gives it back, with every LEN and LANE at every value the
encoding admits, and no word decodes to a command it is not the encoding of. -/
def Obligations.DecodeGivesACommandExactlyOnItsEncoding : Prop :=
  ∀ (d : Word) (i : Instr), decode d = .command i ↔ (i.wf = true ∧ encode i = d)

/-- 30_encoding.md R64: what each legal word means, and that every other word is illegal. -/
def Obligations.TheLegalWordsAreTheTwentyFiveListed : Prop :=
  decode 0x00000000 = .command .nop ∧
  (∀ n : Nat, 1 ≤ n → n ≤ 5 → decode (BitVec.ofNat 32 (n * 16 + 1)) = .command (.enc (BitVec.ofNat 3 n))) ∧
  decode 0x00000002 = .command .dec ∧
  decode 0x00000003 = .command .slice ∧
  decode 0x00000004 = .command .pack ∧
  (∀ k : Lane, decode (BitVec.ofNat 32 (k.val * 128 + 5)) = .command (.romf k)) ∧
  (∀ k : Lane, decode (BitVec.ofNat 32 (k.val * 128 + 6)) = .command (.romi k)) ∧
  ∀ d : Word, (∃ why, decode d = .illegal why) ↔
    d ∉ [0x00000000, 0x00000011, 0x00000021, 0x00000031, 0x00000041, 0x00000051, 0x00000002, 0x00000003, 0x00000004,
         0x005, 0x085, 0x105, 0x185, 0x205, 0x285, 0x305, 0x385,
         0x006, 0x086, 0x106, 0x186, 0x206, 0x286, 0x306, 0x386]

/-- 30_encoding.md R61, R64: one word of each opcode, written out field by field (RSV, LANE, LEN, OP). -/
def Obligations.OneWordOfEachOpcodeDecodes : Prop :=
  decode 0b0000000000000000000000_000_000_0000#32 = .command .nop ∧
  decode 0b0000000000000000000000_000_100_0001#32 = .command (.enc 4) ∧
  decode 0b0000000000000000000000_000_000_0010#32 = .command .dec ∧
  decode 0b0000000000000000000000_000_000_0011#32 = .command .slice ∧
  decode 0b0000000000000000000000_000_000_0100#32 = .command .pack ∧
  decode 0b0000000000000000000000_101_000_0101#32 = .command (.romf 5) ∧
  decode 0b0000000000000000000000_110_000_0110#32 = .command (.romi 6)

/-- 30_encoding.md R65: the legality predicate, with the fields read off the word as a number; and an illegal word is not
performed: it writes CODE 7 and changes no other state. -/
def Obligations.LegalityIsTheFieldPredicate : Prop :=
  ∀ (d : Word),
    let op := d.toNat % 16
    let len := d.toNat / 16 % 8
    let lane := d.toNat / 128 % 8
    (legal d = true ↔
      d.toNat / 1024 = 0 ∧
        ((op = 0 ∨ op = 2 ∨ op = 3 ∨ op = 4) ∧ len = 0 ∧ lane = 0 ∨
         op = 1 ∧ 1 ≤ len ∧ len ≤ 5 ∧ lane = 0 ∨
         (op = 5 ∨ op = 6) ∧ len = 0)) ∧
    (legal d = false → ∀ s : State, perform d s = .next { s with code := 7 })

/-- 30_encoding.md R69: what each command line assembles to, in either case of its letters; any other operand value is
refused; a command line means one write of its word to CMD. -/
def Obligations.TheAssemblerGivesTheListedWords : Prop :=
  (assemble ['n', 'o', 'p'] []).map encode = some 0x00000000 ∧
  (assemble ['d', 'e', 'c'] []).map encode = some 0x00000002 ∧
  (assemble ['s', 'l', 'i', 'c', 'e'] []).map encode = some 0x00000003 ∧
  (assemble ['p', 'a', 'c', 'k'] []).map encode = some 0x00000004 ∧
  (∀ n : Nat, (assemble ['e', 'n', 'c'] [n]).map encode =
    if 1 ≤ n ∧ n ≤ 5 then some (BitVec.ofNat 32 (n * 16 + 1)) else none) ∧
  (∀ n : Nat, (assemble ['r', 'o', 'm', 'f'] [n]).map encode =
    if n < 8 then some (BitVec.ofNat 32 (n * 128 + 5)) else none) ∧
  (∀ n : Nat, (assemble ['r', 'o', 'm', 'i'] [n]).map encode =
    if n < 8 then some (BitVec.ofNat 32 (n * 128 + 6)) else none) ∧
  (∀ (m m' : List Char) (ops : List Nat), m.map Char.toLower = m'.map Char.toLower → assemble m ops = assemble m' ops) ∧
  ∀ (r : Rom) (i : Instr), HostLine.expand r (.command i) = [.write 0x00 (encode i)]

/-! ## The step and the host register space -/

/-- 44_control.md R172, 20_memory.md R44: a write to CMD of a word that decodes to a command is, as one step, that command
on the state with the access taken off the queue (the queue is the model's own, log entry 1). -/
def Obligations.StepPerformsTheDecodedCommand : Prop :=
  ∀ (s : State) (a : Addr) (d : Word) (rest : List Event) (i : Instr),
    s.events = .write a d :: rest → a &&& 0xFC = 0 → decode d = .command i →
      step s = exec i { s with events := rest }

/-- 20_memory.md R51: a step performs the oldest access and takes it off the queue. The queue, the list of answers and reset
as an event are the model's own (log entries 1, 3, 4). -/
def Obligations.AStepPerformsTheOldestAccess : Prop :=
  ∀ (s : State) (rest : List Event),
    (∀ (a : Addr) (d : Word), s.events = .write a d :: rest → step s = busWrite a d { s with events := rest }) ∧
    (∀ a : Addr, s.events = .read a :: rest →
      step s = .next { s with events := rest, reads := s.reads ++ [busRead s a] }) ∧
    (s.events = .reset :: rest → step s = .next { s.resetRegisters with events := rest })

/-- 44_control.md R171: the words that are not legal are all but those 30_encoding.md R64 lists; writing one to CMD writes CODE
7 and nothing else. -/
def Obligations.AnIllegalWordWritesCodeSevenOnly : Prop :=
  ∀ (d : Word),
    (legal d = false ↔
      d ∉ [0x00000000, 0x00000011, 0x00000021, 0x00000031, 0x00000041, 0x00000051, 0x00000002, 0x00000003, 0x00000004,
           0x005, 0x085, 0x105, 0x185, 0x205, 0x285, 0x305, 0x385,
           0x006, 0x086, 0x106, 0x186, 0x206, 0x286, 0x306, 0x386]) ∧
    (legal d = false → ∀ (s : State) (a : Addr), a &&& 0xFC = 0 → busWrite a d s = .next { s with code := 7 })

/-- 60_exceptions.md R185, R193, 93_implementation_defined.md I17: from every state the step goes on; it takes exactly one
event off the queue (log entries 1 and 2). -/
def Obligations.EveryStepGoesOn : Prop :=
  ∀ s : State, ∃ t, step s = .next t ∧ t.events = s.events.tail

/-- 20_memory.md R44: `BusWrite(a, d)`, case by case of the word address. -/
def Obligations.ABusWriteDoesWhatItsAddressSays : Prop :=
  ∀ (s : State) (a : Addr) (d : Word),
    let wa := (a &&& 0xFC).toNat
    (wa = 0x00 → busWrite a d s = perform d s) ∧
    (wa = 0x08 → busWrite a d s = .next { s with din := d.extractLsb' 0 8 ++ s.din.extractLsb' 0 32 }) ∧
    (wa = 0x0C → busWrite a d s = .next { s with din := s.din.extractLsb' 32 8 ++ d }) ∧
    (∀ k : Lane, wa = 0x20 + 4 * k.val → busWrite a d s = .next { s with val := s.val.set k (d.extractLsb' 0 5) }) ∧
    (∀ k : Lane, wa = 0x40 + 4 * k.val → busWrite a d s = .next { s with sin := s.sin.set k (d.extractLsb' 0 24) }) ∧
    (wa = 0x04 ∨ wa = 0x10 ∨ wa = 0x14 → busWrite a d s = .next s) ∧
    (∀ k : Lane, wa = 0x60 + 4 * k.val → busWrite a d s = .next s) ∧
    (wa = 0x18 ∨ wa = 0x1C ∨ 0x80 ≤ wa → busWrite a d s = .next s)

/-- 20_memory.md R45: the word `BusRead(a)` returns, case by case of the word address; and a read changes no register (the
list of answers that it does add to is the model's own, log entry 3). -/
def Obligations.ABusReadReturnsTheRegister : Prop :=
  ∀ (s : State) (a : Addr),
    let wa := (a &&& 0xFC).toNat
    (wa = 0x00 → busRead s a = 0) ∧
    (wa = 0x04 → busRead s a = BitVec.ofNat 32 (s.code.toNat + 16 * s.nbytes.toNat + 256 * s.sclass.toNat)) ∧
    (wa = 0x08 → busRead s a = (s.din.extractLsb' 32 8).setWidth 32) ∧
    (wa = 0x0C → busRead s a = s.din.extractLsb' 0 32) ∧
    (wa = 0x10 → busRead s a = (s.dout.extractLsb' 32 8).setWidth 32) ∧
    (wa = 0x14 → busRead s a = s.dout.extractLsb' 0 32) ∧
    (∀ k : Lane, wa = 0x20 + 4 * k.val → busRead s a = s.val[k].setWidth 32) ∧
    (∀ k : Lane, wa = 0x40 + 4 * k.val → busRead s a = s.sin[k].setWidth 32) ∧
    (∀ k : Lane, wa = 0x60 + 4 * k.val → busRead s a = s.sout[k].setWidth 32) ∧
    (wa = 0x18 ∨ wa = 0x1C ∨ 0x80 ≤ wa → busRead s a = 0) ∧
    ∃ t, s.handle (.read a) = .next t ∧ t = { s with reads := t.reads }

/-- 20_memory.md R46: an access at `a` goes to the word at `a & 0xFC`, and none is trapped. -/
def Obligations.AccessesIgnoreTheTwoLowAddressBits : Prop :=
  ∀ (s : State) (a : Addr) (d : Word),
    busWrite a d s = busWrite (a &&& 0xFC) d s ∧ busRead s a = busRead s (a &&& 0xFC) ∧ ∃ t, busWrite a d s = .next t

/-- 10_state.md R31: where CODE, NBYTES and SCLASS stand in STATUS, that its other bits read 0, that a write to it has no
effect, and its reset value. -/
def Obligations.StatusHoldsItsThreeFields : Prop :=
  (∀ s : State,
    (busRead s 0x04).extractLsb' 0 3 = s.code ∧ (busRead s 0x04).extractLsb' 4 3 = s.nbytes ∧
    (busRead s 0x04).extractLsb' 8 2 = s.sclass ∧
    (busRead s 0x04).getLsbD 3 = false ∧ (busRead s 0x04).getLsbD 7 = false ∧
    (busRead s 0x04).extractLsb' 10 22 = 0 ∧
    ∀ d : Word, busWrite 0x04 d s = .next s) ∧
  busRead State.reset 0x04 = 0

/-- 10_state.md R35: a write stores only the field's bits, drops the others unchecked, and does not change CODE; so a read
returns the written word with the other bits 0. -/
def Obligations.AWrittenFieldReadsBackTruncated : Prop :=
  ∀ (s : State) (d : Word),
    (∀ k : Lane, ∃ t, busWrite (BitVec.ofNat 8 (0x20 + 4 * k.val)) d s = .next t ∧ t.val[k] = d.extractLsb' 0 5 ∧
      t.code = s.code ∧ busRead t (BitVec.ofNat 8 (0x20 + 4 * k.val)) = d &&& 0x1F) ∧
    (∀ k : Lane, ∃ t, busWrite (BitVec.ofNat 8 (0x40 + 4 * k.val)) d s = .next t ∧ t.sin[k] = d.extractLsb' 0 24 ∧
      t.code = s.code ∧ busRead t (BitVec.ofNat 8 (0x40 + 4 * k.val)) = d &&& 0xFFFFFF) ∧
    (∃ t, busWrite 0x08 d s = .next t ∧ t.din.extractLsb' 32 8 = d.extractLsb' 0 8 ∧
      t.code = s.code ∧ busRead t 0x08 = d &&& 0xFF) ∧
    (∃ t, busWrite 0x0C d s = .next t ∧ t.din.extractLsb' 0 32 = d ∧ t.code = s.code ∧ busRead t 0x0C = d)

/-- 20_memory.md R48: performing the same command word again, its inputs unchanged, gives the same register contents. -/
def Obligations.RepeatingACommandWordChangesNothingMore : Prop :=
  ∀ (d : Word) (s t : State), perform d s = .next t → perform d t = .next t

/-- An inference from the cases of BusWrite (20_memory.md R44): the order of two writes to different words, neither of them
CMD, does not matter. 70_reset_and_hazards.md R208, which the spec marks as derived, says it of the two writes of `ldin` and
the eight SIN writes of `lgrp`. The queue the two steps take the writes from is the model's own (log entry 1). -/
def Obligations.WritesToDifferentWordsCommute : Prop :=
  ∀ (s : State) (a b : Addr) (d e : Word) (rest : List Event),
    a &&& 0xFC ≠ b &&& 0xFC → a &&& 0xFC ≠ 0 → b &&& 0xFC ≠ 0 →
      ∃ t, stepN 2 { s with events := .write a d :: .write b e :: rest } = .next t ∧
        stepN 2 { s with events := .write b e :: .write a d :: rest } = .next t

/-- 20_memory.md R54: the two writes of a block's bytes put them into DIN, b0 in [39:32]; and DIN_HI, DIN_LO, DOUT_HI, DOUT_LO
read with that placement. That the two writes may come in either order is 70_reset_and_hazards.md R208, which the spec marks
as derived. -/
def Obligations.BlocksAreWrittenMostSignificantByteFirst : Prop :=
  ∀ (s : State) (b0 b1 b2 b3 b4 : Byte),
    (∃ t, busWrite 0x08 (b0.setWidth 32) s = .next t ∧
      busWrite 0x0C (b1.setWidth 32 <<< 24 ||| b2.setWidth 32 <<< 16 ||| b3.setWidth 32 <<< 8 ||| b4.setWidth 32) t =
        .next { s with din := b0 ++ b1 ++ b2 ++ b3 ++ b4 }) ∧
    (∃ t, busWrite 0x0C (b1.setWidth 32 <<< 24 ||| b2.setWidth 32 <<< 16 ||| b3.setWidth 32 <<< 8 ||| b4.setWidth 32) s =
        .next t ∧
      busWrite 0x08 (b0.setWidth 32) t = .next { s with din := b0 ++ b1 ++ b2 ++ b3 ++ b4 }) ∧
    (s.din = b0 ++ b1 ++ b2 ++ b3 ++ b4 →
      busRead s 0x08 = b0.setWidth 32 ∧ busRead s 0x0C = b1 ++ b2 ++ b3 ++ b4) ∧
    (s.dout = b0 ++ b1 ++ b2 ++ b3 ++ b4 →
      busRead s 0x10 = b0.setWidth 32 ∧ busRead s 0x14 = b1 ++ b2 ++ b3 ++ b4)

/-- 30_encoding.md R70: `lgrp` writes its eight operands to SIN[0..7], `S<i>` being `ALPHABET[i]` and `P` PAD_SYMBOL. -/
def Obligations.LgrpLoadsTheGroup : Prop :=
  ∀ (s : State) (o0 o1 o2 o3 o4 o5 o6 o7 : DataOperand) (rest : List Event),
    stepN 8 { s with events := HostLine.expand s.rom (.lgrp o0 o1 o2 o3 o4 o5 o6 o7) ++ rest } =
      .next { s with
        events := rest
        sin := Vector.ofFn fun k => match #v[o0, o1, o2, o3, o4, o5, o6, o7][k] with
          | .word w => w.extractLsb' 0 24
          | .entry i => s.rom.alphabet[i]
          | .padSymbol => s.rom.pad }

/-- 60_exceptions.md R192: with no access left the hardware is idle and holds its registers. The idle step is the model's
reading of that rule (log entry 2). -/
def Obligations.AnIdleStepHoldsEverything : Prop :=
  ∀ s : State, s.events = [] → step s = .next s

/-- 70_reset_and_hazards.md R200, R201: reset sets every interface register to 0 and leaves the ROM; every read then returns
0. That reset is an event between two accesses is the model's choice (log entry 4). -/
def Obligations.AResetClearsEveryRegister : Prop :=
  ∀ (s : State) (rest : List Event), s.events = .reset :: rest →
    ∃ t, step s = .next t ∧ t.rom = s.rom ∧ t.events = rest ∧ t.reads = s.reads ∧
      t.din = 0 ∧ t.dout = 0 ∧ t.nbytes = 0 ∧ t.code = 0 ∧ t.sclass = 0 ∧
      (∀ k : Lane, t.val[k] = 0 ∧ t.sin[k] = 0 ∧ t.sout[k] = 0) ∧ ∀ a : Addr, busRead t a = 0

/-- 10_state.md R34: the reset values, and that reset leaves ALPHABET and PAD_SYMBOL. -/
def Obligations.AfterResetEveryRegisterIsZero : Prop :=
  State.reset.din = 0 ∧ State.reset.dout = 0 ∧ State.reset.nbytes = 0 ∧ State.reset.code = 0 ∧ State.reset.sclass = 0 ∧
  (∀ k : Lane, State.reset.val[k] = 0 ∧ State.reset.sin[k] = 0 ∧ State.reset.sout[k] = 0) ∧
  ∀ s : State, s.resetRegisters.rom = s.rom

/-! ## NOP -/

/-- 44_control.md R170: NOP, the word 0x00000000, writes CODE 0 and leaves every other register. -/
def Obligations.NopClearsCodeOnly : Prop :=
  decode 0x00000000 = .command .nop ∧ ∀ s : State, exec .nop s = .next { s with code := 0 }

/-! ## symbol_rom -/

/-- 40_symbol_rom.md R84: ROMF K writes `ALPHABET[VAL[K]]` to SOUT[K] and CODE 0, and nothing else; its word; a word of its
opcode with LEN or RSV not 0 is not performed. -/
def Obligations.RomfLooksUpItsLane : Prop :=
  ∀ (s : State),
    (∀ k : Lane, decode (BitVec.ofNat 32 (k.val * 128 + 5)) = .command (.romf k) ∧
      exec (.romf k) s = .next { s with sout := s.sout.set k s.rom.alphabet[s.val[k].toNat], code := 0 }) ∧
    ∀ d : Word, opField d = 5 → (lenField d ≠ 0 ∨ rsvField d ≠ 0) → perform d s = .next { s with code := 7 }

/-- 40_symbol_rom.md R85: ROMI K by the class of SIN[K], in a ROM the spec allows: on a Hit VAL[K] is the index and SCLASS 0;
on a Pad SCLASS is 1, on a Miss 2, and VAL is unchanged; CODE is 0 in all three, and nothing else is written; its word; a
word of its opcode with LEN or RSV not 0 is not performed. -/
def Obligations.RomiClassifiesItsLane : Prop :=
  ∀ (s : State), s.rom.Legal →
    (∀ k : Lane, decode (BitVec.ofNat 32 (k.val * 128 + 6)) = .command (.romi k) ∧
      (∀ i : Fin 32, s.sin[k] = s.rom.alphabet[i] →
        exec (.romi k) s = .next { s with val := s.val.set k (BitVec.ofNat 5 i.val), sclass := 0, code := 0 }) ∧
      (s.sin[k] = s.rom.pad → exec (.romi k) s = .next { s with sclass := 1, code := 0 }) ∧
      ((∀ i : Fin 32, s.sin[k] ≠ s.rom.alphabet[i]) → s.sin[k] ≠ s.rom.pad →
        exec (.romi k) s = .next { s with sclass := 2, code := 0 })) ∧
    ∀ d : Word, opField d = 6 → (lenField d ≠ 0 ∨ rsvField d ≠ 0) → perform d s = .next { s with code := 7 }

/-- 40_symbol_rom.md R86: the three laws of the two lookups, in every ROM the spec allows. -/
def Obligations.TheTwoLookupsAreInverse : Prop :=
  ∀ r : Rom, r.Legal →
    (∀ i : Value, romInv r (romFwd r i) = .hit i) ∧ romInv r r.pad = .pad ∧
    ∀ (s : Symbol) (i : Value), romInv r s = .hit i → romFwd r i = s

/-- 40_symbol_rom.md R81: the class of a symbol, all 24 bits compared, in every ROM the spec allows. -/
def Obligations.TheInverseLookupIsExact : Prop :=
  ∀ (r : Rom) (s : Symbol), r.Legal →
    (∀ i : Value, romInv r s = .hit i ↔ r.alphabet[i.toNat] = s) ∧
    (romInv r s = .pad ↔ s = r.pad) ∧
    (romInv r s = .miss ↔ (∀ i : Fin 32, r.alphabet[i] ≠ s) ∧ s ≠ r.pad)

/-! ## bit_slicer -/

/-- 41_bit_slicer.md R103, with R100's formulas: SLICE writes them, computed on the bytes of DIN, to VAL[0..7], and CODE 0,
and nothing else; its word. -/
def Obligations.SliceComputesTheFormulas : Prop :=
  decode 0x00000003 = .command .slice ∧
  ∀ (s : State) (b0 b1 b2 b3 b4 : Byte), s.din = b0 ++ b1 ++ b2 ++ b3 ++ b4 →
    exec .slice s = .next { s with
      val := #v[(b0 >>> 3).setWidth 5,
        ((b0 &&& 0x07) <<< 2 ||| b1 >>> 6).setWidth 5,
        ((b1 &&& 0x3E) >>> 1).setWidth 5,
        ((b1 &&& 0x01) <<< 4 ||| b2 >>> 4).setWidth 5,
        ((b2 &&& 0x0F) <<< 1 ||| (b3 &&& 0x80) >>> 7).setWidth 5,
        ((b3 &&& 0x7C) >>> 2).setWidth 5,
        ((b3 &&& 0x03) <<< 3 ||| (b4 &&& 0xE0) >>> 5).setWidth 5,
        (b4 &&& 0x1F).setWidth 5]
      code := 0 }

/-- 41_bit_slicer.md R100's equivalent form, which the spec derives: SLICE writes `DIN[39-5k : 35-5k]` to VAL[k] for every
lane, and CODE 0, and nothing else. -/
def Obligations.SliceCutsTheBlockFromTheTop : Prop :=
  ∀ s : State, ∃ t, exec .slice s = .next t ∧ t = { s with val := t.val, code := 0 } ∧
    ∀ k : Lane, t.val[k] = s.din.extractLsb' (35 - 5 * k.val) 5

/-- 41_bit_slicer.md R104 (with R101's equivalent form): PACK writes `VAL[0] ++ ... ++ VAL[7]` to DOUT, 5 to NBYTES, and CODE
0, and nothing else; its word. -/
def Obligations.PackJoinsTheLanes : Prop :=
  decode 0x00000004 = .command .pack ∧
  ∀ s : State, exec .pack s = .next { s with
    dout := s.val[0] ++ s.val[1] ++ s.val[2] ++ s.val[3] ++ s.val[4] ++ s.val[5] ++ s.val[6] ++ s.val[7]
    nbytes := 5
    code := 0 }

/-- 41_bit_slicer.md R102: slicing and packing are inverse to each other, on every block and on every eight values. -/
def Obligations.SliceAndPackAreInverse : Prop :=
  (∀ b : Vector Byte 5, pack (slice b) = b) ∧ ∀ v : Vector Value 8, slice (pack v) = v

/-! ## base32_encoder -/

/-- 42_encoder.md R124 (with R120 to R123): ENC L writes all eight lanes of SOUT and CODE 0, and nothing else. With the bytes
of DIN at positions L and above taken as 0, lane k is the symbol of `DIN[39-5k : 35-5k]` where that field begins within
the block's 8L bits, and PAD_SYMBOL elsewhere. Its word; a word of its opcode with another LEN, or with LANE or RSV not 0,
is not performed, and the term with such a LEN does the same (log entry 7). -/
def Obligations.EncWritesTheGroupOfTheBlock : Prop :=
  ∀ (s : State),
    (∀ len : BitVec 3, 1 ≤ len.toNat → len.toNat ≤ 5 →
      decode (BitVec.ofNat 32 (len.toNat * 16 + 1)) = .command (.enc len) ∧
      ∃ t, exec (.enc len) s = .next t ∧ t = { s with sout := t.sout, code := 0 } ∧
        ∀ k : Lane, t.sout[k] =
          if 5 * k.val < 8 * len.toNat then
            let kept : Block := (s.din >>> (40 - 8 * len.toNat)) <<< (40 - 8 * len.toNat)
            s.rom.alphabet[(kept.extractLsb' (35 - 5 * k.val) 5).toNat]
          else s.rom.pad) ∧
    (∀ len : BitVec 3, lenInRange len = false → exec (.enc len) s = .next { s with code := 7 }) ∧
    ∀ d : Word, opField d = 1 →
      (lenField d = 0 ∨ lenField d = 6 ∨ lenField d = 7 ∨ laneField d ≠ 0 ∨ rsvField d ≠ 0) →
        perform d s = .next { s with code := 7 }

/-- 42_encoder.md R125: a word of ENC's opcode with LEN 0, 6 or 7 writes CODE 7 and nothing else; SOUT keeps its contents. -/
def Obligations.EncWithAnIllegalLengthWritesCodeSevenOnly : Prop :=
  ∀ (s : State) (d : Word), opField d = 1 → (lenField d = 0 ∨ lenField d = 6 ∨ lenField d = 7) →
    perform d s = .next { s with code := 7 }

/-- 70_reset_and_hazards.md R206: what ENC L writes does not depend on the bytes of DIN at positions L and above. -/
def Obligations.EncIgnoresTheBytesBeyondItsLength : Prop :=
  ∀ (s s' : State) (len : BitVec 3), 1 ≤ len.toNat → len.toNat ≤ 5 → s.rom = s'.rom →
    (∀ j : Fin 5, j.val < len.toNat → blockByte s.din j = blockByte s'.din j) →
      ∃ t t', exec (.enc len) s = .next t ∧ exec (.enc len) s' = .next t' ∧ t.sout = t'.sout

/-- 42_encoder.md R120, R123: a block of ℓ bytes gives m(ℓ) alphabet entries and then only padding. -/
def Obligations.PaddingFillsExactlyTheTrailingLanes : Prop :=
  ∀ (r : Rom) (b : Vector Byte 5) (len m : Nat), r.Legal → (len, m) ∈ [(1, 2), (2, 4), (3, 5), (4, 7), (5, 8)] →
    ∀ k : Lane,
      (k.val < m → ∃ i : Fin 32, (encodeBlock r b len)[k] = r.alphabet[i]) ∧
      ((encodeBlock r b len)[k] = r.pad ↔ m ≤ k.val)

/-- 42_encoder.md R129: the length of Encode's output, and that padding stands in the last group only, and only where the
input's length is no multiple of 5. -/
def Obligations.EncodeGivesEightSymbolsABlock : Prop :=
  ∀ (r : Rom) (x : List Byte),
    (encodeBuffer r x).length = 8 * ((x.length + 4) / 5) ∧
    (r.Legal → ∀ j (h : j < (encodeBuffer r x).length), (encodeBuffer r x)[j] = r.pad →
      x.length % 5 ≠ 0 ∧ (encodeBuffer r x).length ≤ j + 8)

/-- 42_encoder.md R127 and 43_decoder.md R152: the empty input encodes to the empty string, which decodes to it. -/
def Obligations.EmptyInputIsTheEmptyString : Prop :=
  ∀ r : Rom, encodeBuffer r [] = [] ∧ decodeBuffer r [] = .ok []

/-! ## base32_decoder -/

/-- 43_decoder.md R143 (with R141, R142): the first lane that raises decides DEC's error. A lane raises when its class is Miss,
or Hit with an earlier Pad. -/
def Obligations.TheFirstLaneThatRaisesDecidesTheError : Prop :=
  ∀ (s : State) (k : Lane),
    let cls := fun j : Lane => romInv s.rom s.sin[j]
    (∀ j : Lane, j < k → cls j ≠ .miss ∧ ∀ (i : Value) (p : Lane), cls j = .hit i → p < j → cls p ≠ .pad) →
      (cls k = .miss → exec .dec s = .next { s with dout := 0, nbytes := 0, code := 2 }) ∧
      (∀ (i : Value) (p : Lane), cls k = .hit i → p < k → cls p = .pad →
        exec .dec s = .next { s with dout := 0, nbytes := 0, code := 3 })

/-- 43_decoder.md R144: a group in which no lane raises is m Hits and then 8 - m Pads; the padding counts 0, 1, 3, 4 and 6
decode, and 2, 5, 7 and 8 give InvalidPaddingCount. -/
def Obligations.OnlyFivePaddingCountsDecode : Prop :=
  ∀ (s : State),
    let cls := fun j : Lane => romInv s.rom s.sin[j]
    (∀ j : Lane, cls j ≠ .miss ∧ ∀ (i : Value) (p : Lane), cls j = .hit i → p < j → cls p ≠ .pad) →
      ∃ m : Nat, m ≤ 8 ∧ (∀ k : Lane, k.val < m → ∃ i : Value, cls k = .hit i) ∧ (∀ k : Lane, m ≤ k.val → cls k = .pad) ∧
        (8 - m ∈ [2, 5, 7, 8] → exec .dec s = .next { s with dout := 0, nbytes := 0, code := 4 }) ∧
        (8 - m ∈ [0, 1, 3, 4, 6] → ∃ t, exec .dec s = .next t ∧ t.code = 0)

/-- 43_decoder.md R145, R147 (with R148, R154): a group of m Hits and then Pads, with m in the table, decodes to nb bytes: DOUT
is the first 8 nb bits of `v0 ++ ... ++ v7` and 0 below them, NBYTES is nb, CODE is 0, and nothing else is written. The
values at the Pad lanes do not enter. -/
def Obligations.DecRebuildsTheBytesOfTheMeaningfulValues : Prop :=
  ∀ (s : State) (v : Vector Value 8) (m nb : Nat), (m, nb) ∈ [(8, 5), (7, 4), (5, 3), (4, 2), (2, 1)] →
    (∀ k : Lane, k.val < m → romInv s.rom s.sin[k] = .hit v[k]) →
    (∀ k : Lane, m ≤ k.val → romInv s.rom s.sin[k] = .pad) →
      let all : Block := v[0] ++ v[1] ++ v[2] ++ v[3] ++ v[4] ++ v[5] ++ v[6] ++ v[7]
      exec .dec s = .next { s with
        dout := (all >>> (40 - 8 * nb)) <<< (40 - 8 * nb)
        nbytes := BitVec.ofNat 3 nb
        code := 0 }

/-- 43_decoder.md R155 (with R154): from every state DEC goes on and writes DOUT, NBYTES and CODE only; it succeeds with 1 to 5
bytes, or fails with code 2, 3 or 4 and leaves DOUT = 0 and NBYTES = 0. Its word. -/
def Obligations.DecLeavesNoPartialOutput : Prop :=
  decode 0x00000002 = .command .dec ∧
  ∀ s : State, ∃ t, exec .dec s = .next t ∧ t = { s with dout := t.dout, nbytes := t.nbytes, code := t.code } ∧
    (t.code = 0 ∧ 1 ≤ t.nbytes.toNat ∧ t.nbytes.toNat ≤ 5 ∨
      (t.code = 2 ∨ t.code = 3 ∨ t.code = 4) ∧ t.dout = 0 ∧ t.nbytes = 0)

/-- 43_decoder.md R148: two groups that differ only in the unused low bits of their last meaningful value decode alike, and do
decode. `drop` is the number of those bits. -/
def Obligations.UnusedLowBitsAreDiscarded : Prop :=
  ∀ (r : Rom) (v w : Vector Value 8) (m drop : Nat), r.Legal → (m, drop) ∈ [(2, 2), (4, 4), (5, 1), (7, 3)] →
    (∀ k : Lane, k.val + 1 < m → v[k] = w[k]) →
    (∀ k : Lane, k.val + 1 = m → v[k] >>> drop = w[k] >>> drop) →
      let group := fun u : Vector Value 8 =>
        (Vector.ofFn fun k => if k.val < m then romFwd r u[k] else r.pad : Vector Symbol 8)
      ∃ bs, decodeGroup r (group v) = .ok bs ∧ decodeGroup r (group w) = .ok bs

/-- 43_decoder.md R156, per block: decoding the group of a block gives back the block's bytes. -/
def Obligations.AGroupDecodesToItsBlock : Prop :=
  ∀ (r : Rom) (b : Vector Byte 5) (len : Nat), r.Legal → 1 ≤ len → len ≤ 5 →
    decodeGroup r (encodeBlock r b len) = .ok (b.toList.take len)

/-- 43_decoder.md R156, on the machine: ENC L, its group carried over to SIN, and then DEC leave the first L bytes of DIN in
DOUT, 0 below them, L in NBYTES and CODE 0. -/
def Obligations.EncThenDecGivesTheBlockBack : Prop :=
  ∀ (s : State) (len : BitVec 3), s.rom.Legal → 1 ≤ len.toNat → len.toNat ≤ 5 →
    ∃ t u, exec (.enc len) s = .next t ∧ exec .dec { t with sin := t.sout } = .next u ∧
      u.dout = (s.din >>> (40 - 8 * len.toNat)) <<< (40 - 8 * len.toNat) ∧ u.nbytes = len ∧ u.code = 0

/-- 43_decoder.md R156: Decode undoes Encode, for every byte list and every ROM the spec allows. -/
def Obligations.DecodeUndoesEncode : Prop :=
  ∀ (r : Rom) (x : List Byte), r.Legal → decodeBuffer r (encodeBuffer r x) = .ok x

/-- 43_decoder.md R150: a string whose length is no multiple of 8 gives MalformedLength whatever its symbols are, and no other
string does. -/
def Obligations.TheLengthIsCheckedBeforeAnyGroup : Prop :=
  ∀ (r : Rom) (t : List Symbol), decodeBuffer r t = .error .malformedLength ↔ t.length % 8 ≠ 0

/-- 43_decoder.md R151, R153: groups decode in order, the first error ends the decode with no output, and a padded group that
is not the last is accepted like any other. -/
def Obligations.GroupsDecodeInOrder : Prop :=
  ∀ (r : Rom) (g : Vector Symbol 8) (t : List Symbol), t.length % 8 = 0 →
    decodeBuffer r (g.toList ++ t) =
      match decodeGroup r g with
      | .error e => .error e
      | .ok bs =>
        match decodeBuffer r t with
        | .error e => .error e
        | .ok cs => .ok (bs ++ cs)

/-- 43_decoder.md R158, its example, in every ROM the spec allows: two strings decode to the same byte, and Encode gives only
one of them back. -/
def Obligations.DecodeIsNotInjective : Prop :=
  ∀ r : Rom, r.Legal →
    let s := fun i : Fin 32 => r.alphabet[i]
    let t := [s 31, s 28, r.pad, r.pad, r.pad, r.pad, r.pad, r.pad]
    let u := [s 31, s 29, r.pad, r.pad, r.pad, r.pad, r.pad, r.pad]
    decodeBuffer r t = .ok [0xFF] ∧ decodeBuffer r u = .ok [0xFF] ∧ encodeBuffer r [0xFF] = t ∧ t ≠ u

/-! ## The host's sequences -/

/-- 42_encoder.md R128: from every state, for every byte list, the host's accesses for Encode (each block in order with `ldin`,
`enc` and the reads of SOUT[0..7]) run to their end and return Encode's symbols in order; VAL, SIN, DOUT, NBYTES and
SCLASS are untouched. The queue and the list of answers are the model's own (log entries 1, 3). -/
def Obligations.TheHostSequenceComputesEncode : Prop :=
  ∀ (s : State) (x : List Byte) (rest : List Event),
    let accesses := expandLines s.rom (encodeLines x)
    s.events = accesses ++ rest →
      ∃ t, stepN accesses.length s = .next t ∧ t.events = rest ∧
        t.reads = s.reads ++ (encodeBuffer s.rom x).map (BitVec.setWidth 32) ∧
        t.rom = s.rom ∧ t.val = s.val ∧ t.sin = s.sin ∧ t.dout = s.dout ∧ t.nbytes = s.nbytes ∧ t.sclass = s.sclass

/-- 43_decoder.md R151: from every state, for every string of whole groups, the host's accesses for Decode (`lgrp`, `dec` and
the reads of STATUS, DOUT_HI and DOUT_LO for each group) run to their end, and what the host makes of the words it read is
Decode's answer: its bytes, or its error's code and no bytes. That the accesses are unrolled over all groups is the model's
choice (log entry 15). -/
def Obligations.TheHostSequenceComputesDecode : Prop :=
  ∀ (s : State) (str : List Symbol) (rest : List Event), str.length % 8 = 0 →
    let accesses := expandLines s.rom (decodeLines str)
    s.events = accesses ++ rest →
      ∃ t answers, stepN accesses.length s = .next t ∧ t.events = rest ∧ t.reads = s.reads ++ answers ∧
        (∀ bs, decodeBuffer s.rom str = .ok bs → gatherDecode answers = .ok bs) ∧
        ∀ e, decodeBuffer s.rom str = .error e → gatherDecode answers = .error e.code

/-! ## The whole machine -/

/-- 10_state.md R27 to R30, 93_implementation_defined.md I13, 00_scope.md R9, R10: every step keeps the invariant: the ROM is
one the spec allows, CODE, NBYTES and SCLASS hold none of the values that are never written, and the bytes of DOUT at
positions NBYTES and above are 0. -/
def Obligations.EveryStepKeepsTheMachineInvariant : Prop :=
  ∀ s t : State, s.Inv → step s = .next t → t.Inv

/-- The state after reset meets the invariant. -/
def Obligations.ResetMeetsTheMachineInvariant : Prop := State.reset.Inv

/-- 10_state.md R22: no command, no bus access and no reset changes the ROM. -/
def Obligations.NoStepChangesTheRom : Prop :=
  ∀ s t : State, step s = .next t → t.rom = s.rom

/-- 44_control.md R173: every command writes CODE, with 0, with 0, 2, 3 or 4 for DEC, and with 7 for an illegal word; apart from
reset, which writes 0, nothing else changes it; NBYTES is written only by DEC and PACK (and reset), SCLASS only by ROMI
(and reset). -/
def Obligations.CodeReportsTheLastCommand : Prop :=
  (∀ s : State,
    (∀ i : Instr, i.wf = true → i ≠ .dec → ∃ t, exec i s = .next t ∧ t.code = 0) ∧
    (∃ t, exec .dec s = .next t ∧ (t.code = 0 ∨ t.code = 2 ∨ t.code = 3 ∨ t.code = 4)) ∧
    (∀ (d : Word) why, decode d = .illegal why → ∃ t, perform d s = .next t ∧ t.code = 7) ∧
    (∀ (i : Instr) t, exec i s = .next t → i ≠ .dec → i ≠ .pack → t.nbytes = s.nbytes) ∧
    ∀ (i : Instr) t, exec i s = .next t → (∀ k, i ≠ .romi k) → t.sclass = s.sclass) ∧
  ∀ (s t : State) (e : Event) (rest : List Event), s.events = e :: rest → step s = .next t →
    (e = .reset → t.code = 0) ∧
    (e ≠ .reset → (∀ a d, e = .write a d → a &&& 0xFC ≠ 0) →
      t.code = s.code ∧ t.nbytes = s.nbytes ∧ t.sclass = s.sclass)

/-- 10_state.md R23 to R27: each data register changes only by its writers: DIN and SIN by host writes to them; VAL[k] by a host
write to it, SLICE or ROMI k; SOUT[k] by ENC or ROMF k; DOUT by DEC or PACK; and each by reset. -/
def Obligations.RegistersChangeOnlyByTheirWriters : Prop :=
  ∀ (s t : State) (e : Event) (rest : List Event), s.events = e :: rest → e ≠ .reset → step s = .next t →
    let writesTo := fun n : Nat => ∃ a d, e = .write a d ∧ (a &&& 0xFC).toNat = n
    let commands := fun i : Instr => ∃ a d, e = .write a d ∧ a &&& 0xFC = 0 ∧ decode d = .command i
    (t.din ≠ s.din → writesTo 0x08 ∨ writesTo 0x0C) ∧
    (∀ k : Lane, t.sin[k] ≠ s.sin[k] → writesTo (0x40 + 4 * k.val)) ∧
    (∀ k : Lane, t.val[k] ≠ s.val[k] → writesTo (0x20 + 4 * k.val) ∨ commands .slice ∨ commands (.romi k)) ∧
    (∀ k : Lane, t.sout[k] ≠ s.sout[k] → (∃ len, commands (.enc len)) ∨ commands (.romf k)) ∧
    (t.dout ≠ s.dout → commands .dec ∨ commands .pack)

/-- 10_state.md R33: a command's result depends on nothing but the ROM and the registers DIN, VAL and SIN. Two states that agree
on these agree after the command on CODE, and each other register is either left alone in both or written alike in
both. -/
def Obligations.ResultsDependOnlyOnTheInputRegisters : Prop :=
  ∀ (s s' : State) (i : Instr), s.rom = s'.rom → s.din = s'.din → s.val = s'.val → s.sin = s'.sin →
    ∃ t t', exec i s = .next t ∧ exec i s' = .next t' ∧ t.code = t'.code ∧
      t.din = t'.din ∧ t.val = t'.val ∧ t.sin = t'.sin ∧
      (∀ k : Lane, t.sout[k] = s.sout[k] ∧ t'.sout[k] = s'.sout[k] ∨ t.sout[k] = t'.sout[k]) ∧
      (t.dout = s.dout ∧ t'.dout = s'.dout ∨ t.dout = t'.dout) ∧
      (t.nbytes = s.nbytes ∧ t'.nbytes = s'.nbytes ∨ t.nbytes = t'.nbytes) ∧
      (t.sclass = s.sclass ∧ t'.sclass = s'.sclass ∨ t.sclass = t'.sclass)

/-- 60_exceptions.md R186: an error does not block later commands; whatever code stands in CODE, the next command is performed
alike and overwrites it. -/
def Obligations.AnErrorDoesNotBlockTheNextCommand : Prop :=
  ∀ (d : Word) (s : State) (c : BitVec 3), perform d { s with code := c } = perform d s

/-- The frame of every command, as the host sees it (10_state.md R32, 92_eei_decisions.md D25): after a command, every address
reads as before but STATUS and the words of the registers the command writes. -/
def Obligations.OtherAddressesReadAsBefore : Prop :=
  ∀ (s t : State) (i : Instr) (a : Addr), exec i s = .next t →
    let wa := (a &&& 0xFC).toNat
    wa ≠ 0x04 →
    (match i with
      | .nop => True
      | .enc _ => wa < 0x60 ∨ 0x80 ≤ wa
      | .dec => wa ≠ 0x10 ∧ wa ≠ 0x14
      | .slice => wa < 0x20 ∨ 0x40 ≤ wa
      | .pack => wa ≠ 0x10 ∧ wa ≠ 0x14
      | .romf k => wa ≠ 0x60 + 4 * k.val
      | .romi k => wa ≠ 0x20 + 4 * k.val) →
    busRead t a = busRead s a
end

