-- ==== Sys2Proof/Laws/Decode.lean ====
section
/-! SUPPORT. The fields of a command word as numbers, and what `decode` can answer. -/

namespace Sys2Proof

theorem opField_toNat (d : Word) : (opField d).toNat = d.toNat % 16 := by simp [opField]

theorem lenField_toNat (d : Word) : (lenField d).toNat = d.toNat / 16 % 8 := by
  simp [lenField, Nat.shiftRight_eq_div_pow]

theorem laneField_toNat (d : Word) : (laneField d).toNat = d.toNat / 128 % 8 := by
  simp [laneField, Nat.shiftRight_eq_div_pow]

theorem rsvField_toNat (d : Word) : (rsvField d).toNat = d.toNat / 1024 := by
  simp [rsvField, Nat.shiftRight_eq_div_pow]; omega

theorem encode_enc_toNat (len : BitVec 3) : (encode (.enc len)).toNat = 16 * len.toNat + 1 := by
  revert len; decide

theorem encode_romf_toNat (k : Lane) : (encode (.romf k)).toNat = 128 * k.val + 5 := by revert k; decide

theorem encode_romi_toNat (k : Lane) : (encode (.romi k)).toNat = 128 * k.val + 6 := by revert k; decide

theorem lenInRange_iff (len : BitVec 3) : lenInRange len = true ↔ 1 ≤ len.toNat ∧ len.toNat ≤ 5 := by
  simp [lenInRange]

/-- A word that is not legal decodes to no command. -/
theorem decode_of_not_legal {d : Word} (h : legal d = false) : decode d = .illegal (illegalReason d) := by
  simp [decode, h]

/-- A legal word decodes to the command its opcode names. -/
theorem decode_of_legal {d : Word} (h : legal d = true) :
    (opField d).toNat = 0 ∧ decode d = .command .nop ∨
    (opField d).toNat = 1 ∧ lenInRange (lenField d) = true ∧ decode d = .command (.enc (lenField d)) ∨
    (opField d).toNat = 2 ∧ decode d = .command .dec ∨
    (opField d).toNat = 3 ∧ decode d = .command .slice ∨
    (opField d).toNat = 4 ∧ decode d = .command .pack ∨
    (opField d).toNat = 5 ∧ decode d = .command (.romf (laneOperand d)) ∨
    (opField d).toNat = 6 ∧ decode d = .command (.romi (laneOperand d)) := by
  unfold decode
  rw [if_pos h]
  unfold legal at h
  split at h <;> simp_all

end Sys2Proof
end

