-- ==== Sys2Proof/Laws/Operands.lean ====
section
/-! SUPPORT. Which register an address names, and the bytes of a block. -/

namespace Sys2Proof.Machine

/-- The map of the host register space, by the word address. -/
theorem regAt_table (a : Addr) :
    ((a &&& 0xFC).toNat = 0x00 → regAt a = .cmd) ∧ ((a &&& 0xFC).toNat = 0x04 → regAt a = .status) ∧
    ((a &&& 0xFC).toNat = 0x08 → regAt a = .dinHi) ∧ ((a &&& 0xFC).toNat = 0x0C → regAt a = .dinLo) ∧
    ((a &&& 0xFC).toNat = 0x10 → regAt a = .doutHi) ∧ ((a &&& 0xFC).toNat = 0x14 → regAt a = .doutLo) ∧
    (∀ k : Lane, (a &&& 0xFC).toNat = 0x20 + 4 * k.val → regAt a = .val k) ∧
    (∀ k : Lane, (a &&& 0xFC).toNat = 0x40 + 4 * k.val → regAt a = .sin k) ∧
    (∀ k : Lane, (a &&& 0xFC).toNat = 0x60 + 4 * k.val → regAt a = .sout k) ∧
    ((a &&& 0xFC).toNat = 0x18 ∨ (a &&& 0xFC).toNat = 0x1C ∨ 0x80 ≤ (a &&& 0xFC).toNat → regAt a = .unmapped) := by
  revert a; decide

theorem regAt_eq_cmd_iff (a : Addr) : regAt a = .cmd ↔ a &&& 0xFC = 0 := by revert a; decide

/-- A register is named by the address the map lists for it. -/
theorem regAt_address (a : Addr) : regAt a ≠ .unmapped → (regAt a).address = some (a &&& 0xFC) := by revert a; decide

theorem regAt_wordAddress (a : Addr) : regAt (wordAddress a) = regAt a := by revert a; decide

@[simp] theorem bytesOfBlock_getElem (w : Block) (j : Nat) (h : j < 5) :
    (bytesOfBlock w)[j] = blockByte w ⟨j, h⟩ := by simp [bytesOfBlock]

theorem bytesOfBlock_blockOfBytes (b : Vector Byte 5) : bytesOfBlock (blockOfBytes b) = b := by
  apply Vector.ext
  intro i hi
  apply BitVec.eq_of_getLsbD_eq
  intro j hj
  simp only [bytesOfBlock_getElem, blockByte, BitVec.getLsbD_extractLsb', blockOfBytes, BitVec.getLsbD_append]
  interval_cases i <;> interval_cases j <;> simp

theorem blockOfBytes_bytesOfBlock (w : Block) : blockOfBytes (bytesOfBlock w) = w := by
  apply BitVec.eq_of_getLsbD_eq
  intro i hi
  simp only [bytesOfBlock_getElem, blockByte, blockOfBytes, BitVec.getLsbD_append]
  interval_cases i <;> simp

theorem blockByte_blockOfBytes (b : Vector Byte 5) (j : Fin 5) : blockByte (blockOfBytes b) j = b[j] := by
  have := bytesOfBlock_getElem (blockOfBytes b) j j.isLt
  rw [bytesOfBlock_blockOfBytes] at this
  exact this.symm

theorem blockByte_zero (j : Fin 5) : blockByte 0 j = 0 := by revert j; decide

end Sys2Proof.Machine
end

