-- ==== Sys2Proof/Laws/PerInstr.lean ====
section
/-! SUPPORT. Statements about commands as terms, one lemma per constructor of `Instr`. -/

/-- A well-formed command's word is legal (30_encoding.md R64, R65). -/
def Sys2Proof.Laws.EncodesLegally.Statement (i : Sys2Proof.Instr) : Prop :=
  i.wf = true → Sys2Proof.legal (Sys2Proof.encode i) = true

theorem Sys2Proof.Laws.EncodesLegally.nop : Statement .nop := by
  intro _; decide

theorem Sys2Proof.Laws.EncodesLegally.enc (len : BitVec 3) : Statement (.enc len) := by
  unfold Statement; revert len; decide

theorem Sys2Proof.Laws.EncodesLegally.dec : Statement .dec := by
  intro _; decide

theorem Sys2Proof.Laws.EncodesLegally.slice : Statement .slice := by
  intro _; decide

theorem Sys2Proof.Laws.EncodesLegally.pack : Statement .pack := by
  intro _; decide

theorem Sys2Proof.Laws.EncodesLegally.romf (lane : Sys2Proof.Lane) : Statement (.romf lane) := by
  unfold Statement; revert lane; decide

theorem Sys2Proof.Laws.EncodesLegally.romi (lane : Sys2Proof.Lane) : Statement (.romi lane) := by
  unfold Statement; revert lane; decide
end

