-- ==== Sys2Proof/Laws/State.lean ====
section
/-! SUPPORT. The fields of State after each named update, one lemma a field, so that no proof unfolds a record update. -/

namespace Sys2Proof.Machine

@[simp] theorem State.reportIllegal_rom (s : State) : s.reportIllegal.rom = s.rom := rfl
@[simp] theorem State.reportIllegal_din (s : State) : s.reportIllegal.din = s.din := rfl
@[simp] theorem State.reportIllegal_val (s : State) : s.reportIllegal.val = s.val := rfl
@[simp] theorem State.reportIllegal_sin (s : State) : s.reportIllegal.sin = s.sin := rfl
@[simp] theorem State.reportIllegal_sout (s : State) : s.reportIllegal.sout = s.sout := rfl
@[simp] theorem State.reportIllegal_dout (s : State) : s.reportIllegal.dout = s.dout := rfl
@[simp] theorem State.reportIllegal_nbytes (s : State) : s.reportIllegal.nbytes = s.nbytes := rfl
@[simp] theorem State.reportIllegal_code (s : State) : s.reportIllegal.code = 7 := rfl
@[simp] theorem State.reportIllegal_sclass (s : State) : s.reportIllegal.sclass = s.sclass := rfl
@[simp] theorem State.reportIllegal_events (s : State) : s.reportIllegal.events = s.events := rfl
@[simp] theorem State.reportIllegal_reads (s : State) : s.reportIllegal.reads = s.reads := rfl

@[simp] theorem State.reportDecodeError_rom (s : State) (e : ErrorKind) : (s.reportDecodeError e).rom = s.rom := rfl
@[simp] theorem State.reportDecodeError_din (s : State) (e : ErrorKind) : (s.reportDecodeError e).din = s.din := rfl
@[simp] theorem State.reportDecodeError_val (s : State) (e : ErrorKind) : (s.reportDecodeError e).val = s.val := rfl
@[simp] theorem State.reportDecodeError_sin (s : State) (e : ErrorKind) : (s.reportDecodeError e).sin = s.sin := rfl
@[simp] theorem State.reportDecodeError_sout (s : State) (e : ErrorKind) : (s.reportDecodeError e).sout = s.sout := rfl
@[simp] theorem State.reportDecodeError_dout (s : State) (e : ErrorKind) : (s.reportDecodeError e).dout = 0 := rfl
@[simp] theorem State.reportDecodeError_nbytes (s : State) (e : ErrorKind) : (s.reportDecodeError e).nbytes = 0 := rfl
@[simp] theorem State.reportDecodeError_code (s : State) (e : ErrorKind) : (s.reportDecodeError e).code = e.code := rfl
@[simp] theorem State.reportDecodeError_sclass (s : State) (e : ErrorKind) : (s.reportDecodeError e).sclass = s.sclass := rfl
@[simp] theorem State.reportDecodeError_events (s : State) (e : ErrorKind) : (s.reportDecodeError e).events = s.events := rfl
@[simp] theorem State.reportDecodeError_reads (s : State) (e : ErrorKind) : (s.reportDecodeError e).reads = s.reads := rfl

@[simp] theorem State.resetRegisters_rom (s : State) : s.resetRegisters.rom = s.rom := rfl
@[simp] theorem State.resetRegisters_din (s : State) : s.resetRegisters.din = 0 := rfl
@[simp] theorem State.resetRegisters_val (s : State) : s.resetRegisters.val = Vector.replicate 8 0 := rfl
@[simp] theorem State.resetRegisters_sin (s : State) : s.resetRegisters.sin = Vector.replicate 8 0 := rfl
@[simp] theorem State.resetRegisters_sout (s : State) : s.resetRegisters.sout = Vector.replicate 8 0 := rfl
@[simp] theorem State.resetRegisters_dout (s : State) : s.resetRegisters.dout = 0 := rfl
@[simp] theorem State.resetRegisters_nbytes (s : State) : s.resetRegisters.nbytes = 0 := rfl
@[simp] theorem State.resetRegisters_code (s : State) : s.resetRegisters.code = 0 := rfl
@[simp] theorem State.resetRegisters_sclass (s : State) : s.resetRegisters.sclass = 0 := rfl
@[simp] theorem State.resetRegisters_events (s : State) : s.resetRegisters.events = s.events := rfl
@[simp] theorem State.resetRegisters_reads (s : State) : s.resetRegisters.reads = s.reads := rfl

@[simp] theorem State.recordRead_rom (s : State) (a : Addr) : (s.recordRead a).rom = s.rom := rfl
@[simp] theorem State.recordRead_din (s : State) (a : Addr) : (s.recordRead a).din = s.din := rfl
@[simp] theorem State.recordRead_val (s : State) (a : Addr) : (s.recordRead a).val = s.val := rfl
@[simp] theorem State.recordRead_sin (s : State) (a : Addr) : (s.recordRead a).sin = s.sin := rfl
@[simp] theorem State.recordRead_sout (s : State) (a : Addr) : (s.recordRead a).sout = s.sout := rfl
@[simp] theorem State.recordRead_dout (s : State) (a : Addr) : (s.recordRead a).dout = s.dout := rfl
@[simp] theorem State.recordRead_nbytes (s : State) (a : Addr) : (s.recordRead a).nbytes = s.nbytes := rfl
@[simp] theorem State.recordRead_code (s : State) (a : Addr) : (s.recordRead a).code = s.code := rfl
@[simp] theorem State.recordRead_sclass (s : State) (a : Addr) : (s.recordRead a).sclass = s.sclass := rfl
@[simp] theorem State.recordRead_events (s : State) (a : Addr) : (s.recordRead a).events = s.events := rfl
@[simp] theorem State.recordRead_reads (s : State) (a : Addr) : (s.recordRead a).reads = s.reads ++ [busRead s a] := rfl

@[simp] theorem State.withFetchWord_rom (s : State) (nbits w : Nat) : (s.withFetchWord nbits w).rom = s.rom := rfl
@[simp] theorem State.withFetchWord_din (s : State) (nbits w : Nat) : (s.withFetchWord nbits w).din = s.din := rfl
@[simp] theorem State.withFetchWord_val (s : State) (nbits w : Nat) : (s.withFetchWord nbits w).val = s.val := rfl
@[simp] theorem State.withFetchWord_sin (s : State) (nbits w : Nat) : (s.withFetchWord nbits w).sin = s.sin := rfl
@[simp] theorem State.withFetchWord_sout (s : State) (nbits w : Nat) : (s.withFetchWord nbits w).sout = s.sout := rfl
@[simp] theorem State.withFetchWord_dout (s : State) (nbits w : Nat) : (s.withFetchWord nbits w).dout = s.dout := rfl
@[simp] theorem State.withFetchWord_nbytes (s : State) (nbits w : Nat) : (s.withFetchWord nbits w).nbytes = s.nbytes := rfl
@[simp] theorem State.withFetchWord_code (s : State) (nbits w : Nat) : (s.withFetchWord nbits w).code = s.code := rfl
@[simp] theorem State.withFetchWord_sclass (s : State) (nbits w : Nat) : (s.withFetchWord nbits w).sclass = s.sclass := rfl
@[simp] theorem State.withFetchWord_events (s : State) (nbits w : Nat) : (s.withFetchWord nbits w).events = .write 0x00 (tableWord nbits w) :: s.events := rfl
@[simp] theorem State.withFetchWord_reads (s : State) (nbits w : Nat) : (s.withFetchWord nbits w).reads = s.reads := rfl

/-! A host write to a data register: what it leaves alone, whichever register it names. -/

@[simp] theorem State.storeReg_rom (s : State) (d : Word) (r : Reg) : (s.storeReg d r).rom = s.rom := by cases r <;> rfl
@[simp] theorem State.storeReg_sout (s : State) (d : Word) (r : Reg) : (s.storeReg d r).sout = s.sout := by cases r <;> rfl
@[simp] theorem State.storeReg_dout (s : State) (d : Word) (r : Reg) : (s.storeReg d r).dout = s.dout := by cases r <;> rfl
@[simp] theorem State.storeReg_nbytes (s : State) (d : Word) (r : Reg) : (s.storeReg d r).nbytes = s.nbytes := by cases r <;> rfl
@[simp] theorem State.storeReg_code (s : State) (d : Word) (r : Reg) : (s.storeReg d r).code = s.code := by cases r <;> rfl
@[simp] theorem State.storeReg_sclass (s : State) (d : Word) (r : Reg) : (s.storeReg d r).sclass = s.sclass := by cases r <;> rfl
@[simp] theorem State.storeReg_events (s : State) (d : Word) (r : Reg) : (s.storeReg d r).events = s.events := by cases r <;> rfl
@[simp] theorem State.storeReg_reads (s : State) (d : Word) (r : Reg) : (s.storeReg d r).reads = s.reads := by cases r <;> rfl

/-- A write to DIN, VAL or SIN does not look at the events. -/
theorem State.storeReg_withEvents (s : State) (d : Word) (r : Reg) (ev : List Event) :
    State.storeReg { s with events := ev } d r = { s.storeReg d r with events := ev } := by cases r <;> rfl

/-! The word of a register is a function of its field. -/

@[simp] theorem State.regWord_withEvents (s : State) (ev : List Event) (r : Reg) :
    State.regWord { s with events := ev } r = s.regWord r := by cases r <;> rfl

@[simp] theorem State.regWord_withReads (s : State) (ws : List Word) (r : Reg) :
    State.regWord { s with reads := ws } r = s.regWord r := by cases r <;> rfl

end Sys2Proof.Machine
end

