-- ==== Sys2Proof/Laws/Step.lean ====
section
/-! SUPPORT. What a command, a bus access and a step can do. -/

namespace Sys2Proof.Machine

/-- Every command goes on (60_exceptions.md R185). -/
theorem exec_next (i : Instr) (s : State) : ∃ t, exec i s = .next t := by
  cases i <;> exact ⟨_, rfl⟩

/-- What every command leaves alone: the ROM, DIN, SIN and the model's own fields. -/
theorem exec_keeps {i : Instr} {s t : State} (h : exec i s = .next t) :
    t.rom = s.rom ∧ t.din = s.din ∧ t.sin = s.sin ∧ t.events = s.events ∧ t.reads = s.reads := by
  cases i <;>
    simp only [exec, execNop, execEnc, execDec, execSlice, execPack, execRomf, execRomi, Host.Outcome.next.injEq] at h <;>
    subst h
  all_goals first | exact ⟨rfl, rfl, rfl, rfl, rfl⟩ | (split <;> exact ⟨rfl, rfl, rfl, rfl, rfl⟩)

theorem perform_of_decode {d : Word} {i : Instr} (h : decode d = .command i) (s : State) : perform d s = exec i s := by
  simp only [perform, h]

theorem perform_of_illegal {d : Word} {why : IllegalReason} (h : decode d = .illegal why) (s : State) :
    perform d s = .next s.reportIllegal := by
  simp only [perform, h]

theorem perform_next (d : Word) (s : State) : ∃ t, perform d s = .next t := by
  cases h : decode d with
  | command i => rw [perform_of_decode h]; exact exec_next i s
  | illegal why => exact ⟨_, perform_of_illegal h s⟩

theorem perform_keeps {d : Word} {s t : State} (h : perform d s = .next t) :
    t.rom = s.rom ∧ t.din = s.din ∧ t.sin = s.sin ∧ t.events = s.events ∧ t.reads = s.reads := by
  cases hd : decode d with
  | command i => rw [perform_of_decode hd] at h; exact exec_keeps h
  | illegal why => rw [perform_of_illegal hd] at h; cases h; exact ⟨rfl, rfl, rfl, rfl, rfl⟩

theorem busWrite_cmd {a : Addr} (h : regAt a = .cmd) (d : Word) (s : State) : busWrite a d s = perform d s := by
  unfold busWrite; rw [h]

theorem busWrite_of_ne_cmd {a : Addr} (h : regAt a ≠ .cmd) (d : Word) (s : State) :
    busWrite a d s = .next (s.storeReg d (regAt a)) := by
  unfold busWrite
  split
  · contradiction
  · rfl

/-- The three kinds of step an event can be. -/
theorem handle_cases (s : State) (e : Event) :
    (∃ a d, e = .write a d ∧ regAt a = .cmd ∧ s.handle e = perform d s) ∨
    (∃ a d, e = .write a d ∧ regAt a ≠ .cmd ∧ s.handle e = .next (s.storeReg d (regAt a))) ∨
    (∃ a, e = .read a ∧ s.handle e = .next (s.recordRead a)) ∨
    (e = .reset ∧ s.handle e = .next s.resetRegisters) := by
  cases e with
  | write a d =>
    by_cases h : regAt a = .cmd
    · exact .inl ⟨a, d, rfl, h, busWrite_cmd h d s⟩
    · exact .inr (.inl ⟨a, d, rfl, h, busWrite_of_ne_cmd h d s⟩)
  | read a => exact .inr (.inr (.inl ⟨a, rfl, rfl⟩))
  | reset => exact .inr (.inr (.inr ⟨rfl, rfl⟩))

/-- A step handles the oldest event. -/
theorem step_cons {s : State} {e : Event} {rest : List Event} (h : s.events = e :: rest) :
    step s = State.handle { s with events := rest } e := by
  unfold step; rw [h]

theorem stepN_succ {n : Nat} {s t : State} (h : step s = .next t) : stepN (n + 1) s = stepN n t := by
  simp only [stepN, h]

theorem stepN_add {a b : Nat} {s t u : State} (h : stepN a s = .next t) (h' : stepN b t = .next u) :
    stepN (a + b) s = .next u := by
  induction a generalizing s with
  | zero => cases h; simpa using h'
  | succ a ih =>
    rw [show a + 1 + b = (a + b) + 1 by omega]
    simp only [stepN] at h ⊢
    split at h
    · exact ih h
    · cases h
    · cases h

/-- The step after `withFetchWord` performs that word (log entry 9). -/
theorem step_withFetchWord (s : State) (nbits w : Nat) :
    step (s.withFetchWord nbits w) = perform (tableWord nbits w) s := by
  rw [step_cons rfl]
  exact busWrite_cmd (show regAt 0x00 = .cmd by decide) _ _

end Sys2Proof.Machine
end

