-- ==== Sys2Proof/Laws/Units.lean ====
section
/-! SUPPORT. One lemma for each operation of the four units: all it can answer. -/

namespace Sys2Proof.Machine

/-- What an answer of the inverse lookup says, in any ROM. -/
theorem romInv_spec (r : Rom) (s : Symbol) :
    match romInv r s with
    | .hit i => romFwd r i = s
    | .pad => s = r.pad ∧ ∀ i : Fin 32, r.alphabet[i] ≠ s
    | .miss => s ≠ r.pad ∧ ∀ i : Fin 32, r.alphabet[i] ≠ s := by
  unfold romInv
  cases h : (List.finRange 32).find? (fun i => r.alphabet[i] == s) with
  | some i =>
    have := List.find?_some h
    simpa only [romFwd, beq_iff_eq] using this
  | none =>
    have absent : ∀ i : Fin 32, r.alphabet[i] ≠ s := by
      intro i
      simpa using List.find?_eq_none.1 h i (List.mem_finRange i)
    by_cases hp : s = r.pad
    · simp only [hp, ↓reduceIte]; exact ⟨trivial, by simpa [hp] using absent⟩
    · simp only [hp, ↓reduceIte]; exact ⟨hp, absent⟩

theorem romFwd_injective {r : Rom} (h : r.Legal) {i j : Value} (e : romFwd r i = romFwd r j) : i = j :=
  BitVec.eq_of_toNat_eq (by simpa using congrArg Fin.val (h.1 i.toFin j.toFin e))

/-- The value in lane `k` is the block's field of 5 bits (41_bit_slicer.md R100, its equivalent form). -/
theorem slice_bytesOfBlock (w : Block) (k : Lane) :
    (slice (bytesOfBlock w))[k] = w.extractLsb' (35 - 5 * k.val) 5 := by
  apply BitVec.eq_of_getLsbD_eq
  intro i hi
  fin_cases k <;> interval_cases i <;> simp [slice, blockByte]

/-- The packed bytes are the eight values side by side (41_bit_slicer.md R101, its equivalent form). -/
theorem blockOfBytes_pack (v : Vector Value 8) :
    blockOfBytes (pack v) = v[0] ++ v[1] ++ v[2] ++ v[3] ++ v[4] ++ v[5] ++ v[6] ++ v[7] := by
  apply BitVec.eq_of_getLsbD_eq
  intro i hi
  rw [blockOfBytes]
  simp only [BitVec.getLsbD_append]
  interval_cases i <;> simp [pack, wide]

theorem zeroExtend_getElem (b : Vector Byte 5) (len j : Nat) (h : j < 5) :
    (zeroExtend b len)[j] = if j < len then b[j] else 0 := by simp [zeroExtend]

/-- `m(ℓ)` is the number of fields that begin within the block (42_encoder.md R120, R121). -/
theorem lt_meaningfulCount_iff {len : Nat} (k : Nat) (h1 : 1 ≤ len) (h5 : len ≤ 5) :
    k < meaningfulCount len ↔ 5 * k < 8 * len := by
  interval_cases len <;> simp [meaningfulCount] <;> omega

theorem encodeBlock_getElem (r : Rom) (b : Vector Byte 5) (len k : Nat) (h : k < 8) :
    (encodeBlock r b len)[k] = if k < meaningfulCount len then romFwd r (slice (zeroExtend b len))[k] else r.pad := by
  simp [encodeBlock]

/-- The scan raises two kinds of error only. -/
theorem scanGroup_error {r : Rom} {l : List Symbol} {p : Bool} {e : ErrorKind} (h : scanGroup r l p = .error e) :
    e = .invalidSymbol ∨ e = .misplacedPadding := by
  induction l generalizing p with
  | nil => simp [scanGroup] at h
  | cons s rest ih =>
    simp only [scanGroup] at h
    split at h
    · injection h with h; exact .inl h.symm
    · exact ih h
    · split at h
      · injection h with h; exact .inr h.symm
      · split at h
        · cases h
        · rename_i he; injection h with h; subst h; exact ih he

theorem scanGroup_length {r : Rom} {l : List Symbol} {p : Bool} {v : List Value} (h : scanGroup r l p = .ok v) :
    v.length ≤ l.length := by
  induction l generalizing p v with
  | nil => simp [scanGroup] at h; subst h; simp
  | cons s rest ih =>
    simp only [scanGroup] at h
    split at h
    · cases h
    · have := ih h; simp; omega
    · split at h
      · cases h
      · split at h
        · rename_i hv; injection h with h; subst h; have := ih hv; simp; omega
        · cases h

/-- A group decodes to 1 to 5 bytes or to one of three errors. -/
theorem decodeGroup_cases (r : Rom) (g : Vector Symbol 8) :
    (∃ bs : List Byte, decodeGroup r g = .ok bs ∧ 1 ≤ bs.length ∧ bs.length ≤ 5) ∨
    ∃ e, decodeGroup r g = .error e ∧ (e = .invalidSymbol ∨ e = .misplacedPadding ∨ e = .invalidPaddingCount) := by
  unfold decodeGroup
  cases h : scanGroup r g.toList false with
  | error e =>
    refine .inr ⟨e, rfl, ?_⟩
    rcases scanGroup_error h with he | he
    · exact .inl he
    · exact .inr (.inl he)
  | ok v =>
    have hl : v.length ≤ 8 := by simpa using scanGroup_length h
    by_cases hp : legalPadding (8 - v.length) = true
    · simp only [hp, if_true]
      refine .inl ⟨_, rfl, ?_⟩
      generalize v.length = n at *
      interval_cases n <;> first | (exfalso; revert hp; decide) | simp [byteCount]
    · simp only [Bool.not_eq_true] at hp
      simp only [hp]
      exact .inr ⟨_, rfl, .inr (.inr rfl)⟩

end Sys2Proof.Machine
end

