-- ==== Sys2Proof/Tests/Slice0.lean ====
section
/-! SUPPORT. Small tests. Every expected value is taken from the spec: the words from 30_encoding.md R64, the vectors from
95_test_vectors.md with the test configuration of its section 3 (92_eei_decisions.md D21: `S<i> = 0x100000 + i`,
`P = 0x1000FF`, `X = 0x00000A`; not the real alphabet). -/

namespace Sys2Proof.Tests
open Sys2Proof.Machine

/-! ## WellFormed refuses -/

theorem test_wf_refuses_enc_0 : (Instr.enc 0).wf = false := by decide
theorem test_wf_refuses_enc_6 : (Instr.enc 6).wf = false := by decide
theorem test_wf_refuses_enc_7 : (Instr.enc 7).wf = false := by decide
theorem test_wf_allows_enc_5 : (Instr.enc 5).wf = true := by decide

/-! ## Words written out from 30_encoding.md R61 (RSV 22 bits, LANE 3, LEN 3, OP 4) -/

theorem test_decode_nop : decode 0b0000000000000000000000_000_000_0000#32 = .command .nop := by decide
theorem test_decode_enc : decode 0b0000000000000000000000_000_011_0001#32 = .command (.enc 3) := by decide
theorem test_decode_enc_5 : decode 0x00000051 = .command (.enc 5) := by decide
theorem test_decode_dec : decode 0b0000000000000000000000_000_000_0010#32 = .command .dec := by decide
theorem test_decode_slice : decode 0b0000000000000000000000_000_000_0011#32 = .command .slice := by decide
theorem test_decode_pack : decode 0b0000000000000000000000_000_000_0100#32 = .command .pack := by decide
theorem test_decode_romf : decode 0b0000000000000000000000_110_000_0101#32 = .command (.romf 6) := by decide
theorem test_decode_romi : decode 0b0000000000000000000000_011_000_0110#32 = .command (.romi 3) := by decide
theorem test_encode_romf_3 : encode (.romf 3) = 0x00000185 := by decide

/-- 95_test_vectors.md V-K2 to V-K9. -/
theorem test_decode_illegal :
    [0x00000001, 0x00000071, 0x00000082, 0x00000403, 0x80000051, 0x00000007, 0x0000000F, 0x00000395].map (decode ·) =
      [.illegal .lenOutOfRange, .illegal .lenOutOfRange, .illegal .strayLane, .illegal .reservedBits,
       .illegal .reservedBits, .illegal .reservedOpcode, .illegal .reservedOpcode, .illegal .strayLen] := by decide

theorem test_decodeTableWord_dec : decodeTableWord 32 2 = some .dec := by decide

/-- 30_encoding.md R69, in both cases; `enc 6` is refused. -/
theorem test_assemble :
    (assemble ['E', 'n', 'c'] [4], assemble ['e', 'n', 'c'] [6], assemble ['r', 'o', 'm', 'i'] [7]) =
      (some (.enc 4), none, some (.romi 7)) := by decide

/-- The text of the lines of 95_test_vectors.md: `enc 5` is 0x00000051, and a hexadecimal operand is refused. -/
theorem test_assembleLine :
    (assembleLine "enc 5".toList, assembleLine "PACK".toList, assembleLine "romf x".toList) =
      (some (.enc 5), some .pack, none) := by decide

/-! ## A small state under the test configuration -/

def testRom : Rom :=
  { alphabet := Vector.ofFn fun i => BitVec.ofNat 24 (0x100000 + i.val), pad := 0x1000FF }

theorem testRom_legal : testRom.Legal := by decide

/-- `S<i>` of the test configuration. -/
def symS (i : Nat) : Symbol := BitVec.ofNat 24 (0x100000 + i)

/-- `P` of the test configuration. -/
def symP : Symbol := 0x1000FF

/-- `X` of the test configuration, a Miss. -/
def symX : Symbol := 0x00000A

/-- Reset with the test configuration's ROM. -/
def blank : State := { State.reset with rom := testRom }

/-- `p` holds of the state `o` gives. -/
def nextHas (o : Host.Outcome State Fault Refusal) (p : State → Bool) : Bool :=
  match o with
  | .next t => p t
  | .fault _ => false
  | .refused _ => false

/-! ## One step of each command -/

/-- 44_control.md R170, its example. -/
theorem test_nop_clears_code : nextHas (exec .nop { blank with code := 3 }) (fun t => t.code == 0) = true := by decide

/-- 95_test_vectors.md V-E8: a tail of 3 with stale bytes behind it. -/
theorem test_enc_3 :
    nextHas (exec (.enc 3) { blank with din := 0x123456789A })
      (fun t => t.sout == #v[symS 2, symS 8, symS 26, symS 5, symS 12, symP, symP, symP] && t.code == 0) = true := by
  decide

/-- 95_test_vectors.md V-E10. -/
theorem test_enc_5 :
    nextHas (exec (.enc 5) { blank with din := 0x123456789A })
      (fun t => t.sout == #v[symS 2, symS 8, symS 26, symS 5, symS 12, symS 30, symS 4, symS 26]) = true := by
  decide

/-- 95_test_vectors.md V-D6: discarded bits set; the bytes beyond NBYTES are 0. -/
theorem test_dec_discards :
    nextHas (exec .dec { blank with sin := #v[symS 31, symS 31, symS 31, symS 31, symP, symP, symP, symP] })
      (fun t => t.dout == 0xFFFF000000 && t.nbytes == 2 && t.code == 0) = true := by decide

/-- 95_test_vectors.md V-D25: the lower lane wins. -/
theorem test_dec_first_error :
    nextHas (exec .dec { blank with
        sin := #v[symS 0, symP, symS 1, symX, symP, symP, symP, symP], dout := 0xFF00000000, nbytes := 1 })
      (fun t => t.dout == 0 && t.nbytes == 0 && t.code == 3) = true := by decide

/-- 95_test_vectors.md V-B9. -/
theorem test_slice :
    nextHas (exec .slice { blank with din := 0x123456789A })
      (fun t => t.val == #v[2, 8, 26, 5, 12, 30, 4, 26]) = true := by decide

/-- 95_test_vectors.md V-B10. -/
theorem test_pack :
    nextHas (exec .pack { blank with val := #v[27, 26, 22, 27, 29, 27, 26, 2] })
      (fun t => t.dout == 0xDEADBEEF42 && t.nbytes == 5) = true := by decide

/-- 95_test_vectors.md V-R8. -/
theorem test_romf :
    nextHas (exec (.romf 3) { blank with val := blank.val.set 3 28 })
      (fun t => t.sout == #v[0, 0, 0, symS 28, 0, 0, 0, 0]) = true := by decide

/-- 95_test_vectors.md V-R9: the last entry is a Hit. -/
theorem test_romi_hit :
    nextHas (exec (.romi 0) { blank with sin := blank.sin.set 0 (symS 31), val := blank.val.set 0 5, sclass := 2 })
      (fun t => t.val == #v[31, 0, 0, 0, 0, 0, 0, 0] && t.sclass == 0) = true := by decide

/-- 95_test_vectors.md V-R11. -/
theorem test_romi_miss :
    nextHas (exec (.romi 7) { blank with sin := blank.sin.set 7 symX, val := blank.val.set 7 9 })
      (fun t => t.val == #v[0, 0, 0, 0, 0, 0, 0, 9] && t.sclass == 2 && t.code == 0) = true := by decide

/-! ## The bus -/

/-- 95_test_vectors.md V-K13: 0x01 names CMD. -/
theorem test_cmd_at_1 :
    nextHas (step { blank with events := [.write 0x01 0x51] })
      (fun t => t.sout[0] == symS 0 && t.events == []) = true := by decide

/-- 95_test_vectors.md V-K12: 0x05 names STATUS, which is read-only. -/
theorem test_status_is_read_only :
    nextHas (step { blank with code := 3, events := [.write 0x05 0x51] })
      (fun t => t == { blank with code := 3 }) = true := by decide

/-- 95_test_vectors.md P7, its first line. -/
theorem test_illegal_word :
    nextHas (step { blank with events := [.write 0x00 0x61] }) (fun t => t == { blank with code := 7 }) = true := by
  decide

/-- 95_test_vectors.md P3, its `rd STATUS`. -/
theorem test_read_status :
    nextHas (step { blank with nbytes := 5, events := [.read 0x04] }) (fun t => t.reads == [0x00000050]) = true := by
  decide

/-- 95_test_vectors.md P3: `lsin 5, S9` is W 0x54 0x00100009. -/
theorem test_lsin_expands :
    HostLine.expand testRom (.lsin 5 (.entry 9)) = [.write 0x54 0x00100009] := by decide

/-- 95_test_vectors.md P1: `ldin 01,02,03,04,05`. -/
theorem test_ldin_expands :
    HostLine.expand testRom (.ldin 1 2 3 4 5) = [.write 0x08 0x00000001, .write 0x0C 0x02030405] := by decide

/-! ## Encode and Decode over a buffer -/

/-- 95_test_vectors.md V-S6. -/
theorem test_encode_foobar :
    encodeBuffer testRom [0x66, 0x6F, 0x6F, 0x62, 0x61, 0x72] =
      [symS 12, symS 25, symS 23, symS 22, symS 30, symS 24, symS 19, symS 1,
       symS 14, symS 8, symP, symP, symP, symP, symP, symP] := by decide

/-- 95_test_vectors.md V-T4: a padded group that is not the last. -/
theorem test_decode_padded_group_first :
    decodeBuffer testRom
        ([symS 31, symS 28, symP, symP, symP, symP, symP, symP] ++ List.replicate 8 (symS 0)) =
      .ok [0xFF, 0, 0, 0, 0, 0] := by decide

/-- 95_test_vectors.md V-T3: the length comes first. -/
theorem test_decode_length_first : decodeBuffer testRom (List.replicate 9 symX) = .error .malformedLength := by decide

/-! ## The hypotheses of the statements are met

One theorem for each statement of Certificates/Slice0/Obligations.lean that has hypotheses: it shows a state and operands
that meet them all together, clause by clause at the ends of the ranges. -/

/-- The test machine with these events to come. -/
def pending (es : List Event) : State := { blank with events := es }

theorem witness_TheLegalWordsAreTheTwentyFiveListed : (1 ≤ 1 ∧ 1 ≤ 5) ∧ (1 ≤ 5 ∧ 5 ≤ 5) := by decide

theorem witness_LegalityIsTheFieldPredicate : legal 0x00000007 = false := by decide

theorem witness_TheAssemblerGivesTheListedWords :
    ['E', 'N', 'C'].map Char.toLower = ['e', 'n', 'c'].map Char.toLower := by decide

theorem witness_StepPerformsTheDecodedCommand :
    (pending [.write 0x03 0x51]).events = [.write 0x03 0x51] ∧ (0x03 : Addr) &&& 0xFC = 0 ∧
      decode 0x51 = .command (.enc 5) := by decide

theorem witness_AStepPerformsTheOldestAccess :
    (pending [.write 0xFF 9, .reset]).events = [.write 0xFF 9, .reset] ∧
      (pending [.read 0xFF]).events = [.read 0xFF] ∧ (pending [.reset]).events = [.reset] := ⟨rfl, rfl, rfl⟩

/-- The words next to legal ones, and an address with its low bits set. -/
theorem witness_AnIllegalWordWritesCodeSevenOnly :
    ([0x00000001, 0x00000061, 0x00000007, 0x80000000, 0xFFFFFFFF] : List Word).all (fun d => legal d == false) = true ∧
      (0x03 : Addr) &&& 0xFC = 0 := by decide

/-- Both ends of each clause's addresses, for the writes and the reads. -/
theorem witness_ABusWriteDoesWhatItsAddressSays :
    ([0x00, 0x03, 0x08, 0x0B, 0x0C, 0x0F, 0x20, 0x3F, 0x40, 0x5F] : List Addr).map (fun a => (a &&& 0xFC).toNat) =
        [0x00, 0x00, 0x08, 0x08, 0x0C, 0x0C, 0x20 + 4 * 0, 0x20 + 4 * 7, 0x40 + 4 * 0, 0x40 + 4 * 7] ∧
      ([0x04, 0x07, 0x10, 0x17, 0x60, 0x7F, 0x18, 0x1F, 0x80, 0xFF] : List Addr).map (fun a => (a &&& 0xFC).toNat) =
        [0x04, 0x04, 0x10, 0x14, 0x60 + 4 * 0, 0x60 + 4 * 7, 0x18, 0x1C, 0x80, 0xFC] := by decide

/-- The clauses' addresses are those of the writes. -/
theorem witness_ABusReadReturnsTheRegister :
    ([0x03, 0x07, 0x0B, 0x0F, 0x13, 0x17, 0x20, 0x3F, 0x40, 0x5F, 0x60, 0x7F, 0x18, 0x1F, 0x80, 0xFF] : List Addr).map
        (fun a => (a &&& 0xFC).toNat) =
      [0x00, 0x04, 0x08, 0x0C, 0x10, 0x14, 0x20, 0x3C, 0x40, 0x5C, 0x60, 0x7C, 0x18, 0x1C, 0x80, 0xFC] := by decide

theorem witness_RepeatingACommandWordChangesNothingMore : ∃ t, perform 0x51 blank = .next t := ⟨_, rfl⟩

theorem witness_WritesToDifferentWordsCommute :
    (0x08 : Addr) &&& 0xFC ≠ 0x0C &&& 0xFC ∧ (0x08 : Addr) &&& 0xFC ≠ 0 ∧ (0x0C : Addr) &&& 0xFC ≠ 0 := by decide

theorem witness_BlocksAreWrittenMostSignificantByteFirst :
    ({ blank with din := 0x123456789A } : State).din = (0x12#8 ++ 0x34#8 ++ 0x56#8 ++ 0x78#8 ++ 0x9A#8 : Block) ∧
      ({ blank with dout := 0x123456789A } : State).dout = (0x12#8 ++ 0x34#8 ++ 0x56#8 ++ 0x78#8 ++ 0x9A#8 : Block) := by decide

theorem witness_AnIdleStepHoldsEverything : blank.events = [] := rfl

theorem witness_AResetClearsEveryRegister : (pending [.reset, .read 0x04]).events = [.reset, .read 0x04] := rfl

/-- LEN not 0, then RSV not 0. -/
theorem witness_RomfLooksUpItsLane :
    (opField 0x15 = 5 ∧ lenField 0x15 ≠ 0) ∧ (opField 0x80000005 = 5 ∧ rsvField 0x80000005 ≠ 0) := by decide

/-- The first and the last entry, the padding symbol, a Miss; and the illegal words of the opcode. -/
theorem witness_RomiClassifiesItsLane :
    blank.rom.Legal ∧
      { blank with sin := blank.sin.set 0 (symS 0) }.sin[(0 : Lane)] = blank.rom.alphabet[(0 : Fin 32)] ∧
      { blank with sin := blank.sin.set 7 (symS 31) }.sin[(7 : Lane)] = blank.rom.alphabet[(31 : Fin 32)] ∧
      { blank with sin := blank.sin.set 7 symP }.sin[(7 : Lane)] = blank.rom.pad ∧
      ((∀ i : Fin 32, blank.sin[(7 : Lane)] ≠ blank.rom.alphabet[i]) ∧ blank.sin[(7 : Lane)] ≠ blank.rom.pad) ∧
      (opField 0x16 = 6 ∧ lenField 0x16 ≠ 0) ∧ (opField 0x80000006 = 6 ∧ rsvField 0x80000006 ≠ 0) := by decide

theorem witness_TheTwoLookupsAreInverse : testRom.Legal ∧ romInv testRom (symS 31) = .hit 31 := by decide

theorem witness_TheInverseLookupIsExact : testRom.Legal := testRom_legal

theorem witness_SliceComputesTheFormulas :
    ({ blank with din := 0x123456789A } : State).din = (0x12#8 ++ 0x34#8 ++ 0x56#8 ++ 0x78#8 ++ 0x9A#8 : Block) := by
  decide

/-- The shortest and the longest block; LEN 0, 6, 7, LANE not 0, RSV not 0. -/
theorem witness_EncWritesTheGroupOfTheBlock :
    (1 ≤ (1 : BitVec 3).toNat ∧ (1 : BitVec 3).toNat ≤ 5) ∧ (1 ≤ (5 : BitVec 3).toNat ∧ (5 : BitVec 3).toNat ≤ 5) ∧
      (opField 0x01 = 1 ∧ lenField 0x01 = 0) ∧ (opField 0x61 = 1 ∧ lenField 0x61 = 6) ∧
      (opField 0x71 = 1 ∧ lenField 0x71 = 7) ∧ lenInRange 6 = false ∧ (opField 0x91 = 1 ∧ laneField 0x91 ≠ 0) ∧
      (opField 0x411 = 1 ∧ rsvField 0x411 ≠ 0) := by decide

theorem witness_EncWithAnIllegalLengthWritesCodeSevenOnly :
    (opField 0x01 = 1 ∧ lenField 0x01 = 0) ∧ (opField 0x61 = 1 ∧ lenField 0x61 = 6) ∧
      (opField 0x71 = 1 ∧ lenField 0x71 = 7) := by decide

theorem witness_EncIgnoresTheBytesBeyondItsLength :
    1 ≤ (3 : BitVec 3).toNat ∧ (3 : BitVec 3).toNat ≤ 5 ∧
      { blank with din := 0x1234560000 }.rom = { blank with din := 0x123456789A }.rom ∧
      ∀ j : Fin 5, j.val < (3 : BitVec 3).toNat → blockByte 0x1234560000 j = blockByte 0x123456789A j :=
  ⟨by decide, by decide, rfl, by decide⟩

theorem witness_PaddingFillsExactlyTheTrailingLanes :
    testRom.Legal ∧ (1, 2) ∈ [(1, 2), (2, 4), (3, 5), (4, 7), (5, 8)] ∧
      (5, 8) ∈ [(1, 2), (2, 4), (3, 5), (4, 7), (5, 8)] := by decide

theorem witness_EncodeGivesEightSymbolsABlock :
    testRom.Legal ∧ (encodeBuffer testRom [0x66])[2]? = some testRom.pad := by decide

/-- A Miss in lane 0; a Miss in lane 7 after seven Hits; a Hit in lane 1 after a Pad in lane 0. In each, no lower lane
raises. -/
theorem witness_TheFirstLaneThatRaisesDecidesTheError :
    let cls := fun (g : Vector Symbol 8) (j : Lane) => romInv testRom g[j]
    let clean := fun (g : Vector Symbol 8) (k : Lane) =>
      ∀ j : Lane, j < k → cls g j ≠ .miss ∧ ∀ (i : Value) (p : Lane), cls g j = .hit i → p < j → cls g p ≠ .pad
    let g0 : Vector Symbol 8 := Vector.replicate 8 symX
    let g7 : Vector Symbol 8 := #v[symS 0, symS 1, symS 2, symS 3, symS 4, symS 5, symS 6, symX]
    let g1 : Vector Symbol 8 := #v[symP, symS 0, symX, symX, symX, symX, symX, symX]
    (clean g0 0 ∧ cls g0 0 = .miss) ∧ (clean g7 7 ∧ cls g7 7 = .miss) ∧
      (clean g1 1 ∧ cls g1 1 = .hit 0 ∧ (0 : Lane) < 1 ∧ cls g1 0 = .pad) := by
  refine ⟨⟨fun j h => absurd h (Fin.not_lt_zero j), by decide⟩, ⟨?_, by decide⟩, ⟨?_, by decide⟩⟩
  · have low : ∀ p : Lane, p < 7 →
        romInv testRom (#v[symS 0, symS 1, symS 2, symS 3, symS 4, symS 5, symS 6, symX] : Vector Symbol 8)[p] ≠ .miss ∧
        romInv testRom (#v[symS 0, symS 1, symS 2, symS 3, symS 4, symS 5, symS 6, symX] : Vector Symbol 8)[p] ≠ .pad := by
      decide
    exact fun j h => ⟨(low j h).1, fun _ p _ hp => (low p (hp.trans h)).2⟩
  · intro j h
    have zero : ∀ k : Lane, k < 1 → k = 0 := by decide
    obtain rfl := zero j h
    exact ⟨by decide, fun _ p _ hp => absurd hp (Fin.not_lt_zero p)⟩

/-- No lane raises in a group of eight Hits (padding count 0), in one of eight Pads (8), and in one of two Hits and six Pads
(6). -/
theorem witness_OnlyFivePaddingCountsDecode :
    let cls := fun (g : Vector Symbol 8) (j : Lane) => romInv testRom g[j]
    let clean := fun (g : Vector Symbol 8) =>
      ∀ j : Lane, cls g j ≠ .miss ∧ ∀ (i : Value) (p : Lane), cls g j = .hit i → p < j → cls g p ≠ .pad
    clean (Vector.replicate 8 (symS 31)) ∧ clean (Vector.replicate 8 symP) ∧
      clean #v[symS 31, symS 31, symP, symP, symP, symP, symP, symP] := by
  have hit : romInv testRom (symS 31) = .hit 31 := by decide
  have pad : romInv testRom symP = .pad := by decide
  have low : ∀ j : Lane, 1 < j →
      romInv testRom (#v[symS 31, symS 31, symP, symP, symP, symP, symP, symP] : Vector Symbol 8)[j] = .pad := by decide
  have high : ∀ j : Lane, j ≤ 1 →
      romInv testRom (#v[symS 31, symS 31, symP, symP, symP, symP, symP, symP] : Vector Symbol 8)[j] = .hit 31 := by decide
  refine ⟨fun j => ?_, fun j => ?_, fun j => ?_⟩
  · simp [hit]
  · simp [pad]
  · by_cases h : j ≤ 1
    · refine ⟨fun e => (nomatch (high j h).symm.trans e), fun i p _ hp e => ?_⟩
      exact nomatch (high p (hp.le.trans h)).symm.trans e
    · have hj := low j (not_le.1 h)
      exact ⟨fun e => (nomatch hj.symm.trans e), fun i p e _ => (nomatch hj.symm.trans e)⟩

/-- The fullest and the shortest group: `v` is eight times 31, and the Pad lanes' values are not looked at. -/
theorem witness_DecRebuildsTheBytesOfTheMeaningfulValues :
    let v : Vector Value 8 := Vector.replicate 8 31
    let g : Vector Symbol 8 := #v[symS 31, symS 31, symP, symP, symP, symP, symP, symP]
    (8, 5) ∈ [(8, 5), (7, 4), (5, 3), (4, 2), (2, 1)] ∧
      (∀ k : Lane, k.val < 8 → romInv testRom (Vector.replicate 8 (symS 31) : Vector Symbol 8)[k] = .hit v[k]) ∧
      (2, 1) ∈ [(8, 5), (7, 4), (5, 3), (4, 2), (2, 1)] ∧
      (∀ k : Lane, k.val < 2 → romInv testRom g[k] = .hit v[k]) ∧ ∀ k : Lane, 2 ≤ k.val → romInv testRom g[k] = .pad := by
  decide

theorem witness_UnusedLowBitsAreDiscarded :
    let v : Vector Value 8 := #v[31, 28, 0, 0, 0, 0, 0, 0]
    let w : Vector Value 8 := #v[31, 31, 0, 0, 0, 0, 0, 0]
    testRom.Legal ∧ (2, 2) ∈ [(2, 2), (4, 4), (5, 1), (7, 3)] ∧ (∀ k : Lane, k.val + 1 < 2 → v[k] = w[k]) ∧
      ∀ k : Lane, k.val + 1 = 2 → v[k] >>> 2 = w[k] >>> 2 := by decide

theorem witness_AGroupDecodesToItsBlock : testRom.Legal ∧ 1 ≤ 1 ∧ 1 ≤ 5 ∧ 5 ≤ 5 := by decide

theorem witness_EncThenDecGivesTheBlockBack :
    blank.rom.Legal ∧ 1 ≤ (1 : BitVec 3).toNat ∧ (5 : BitVec 3).toNat ≤ 5 := by decide

theorem witness_DecodeUndoesEncode : testRom.Legal := testRom_legal

theorem witness_GroupsDecodeInOrder : (List.replicate 8 (symS 0)).length % 8 = 0 := by decide

theorem witness_DecodeIsNotInjective : testRom.Legal := testRom_legal

/-- A buffer of one block and a tail of one byte. -/
theorem witness_TheHostSequenceComputesEncode :
    (pending (expandLines testRom (encodeLines [1, 2, 3, 4, 5, 6]) ++ [.read 0x04])).events =
      expandLines testRom (encodeLines [1, 2, 3, 4, 5, 6]) ++ [.read 0x04] := rfl

/-- One group that decodes, and one that raises an error. -/
theorem witness_TheHostSequenceComputesDecode :
    (List.replicate 8 (symS 0) ++ List.replicate 8 symX).length % 8 = 0 ∧
      decodeBuffer testRom (List.replicate 8 (symS 0)) = .ok [0, 0, 0, 0, 0] ∧
      decodeBuffer testRom (List.replicate 8 (symS 0) ++ List.replicate 8 symX) = .error .invalidSymbol ∧
      (pending (expandLines testRom (decodeLines (List.replicate 8 (symS 0))))).events =
        expandLines testRom (decodeLines (List.replicate 8 (symS 0))) ++ [] := by decide

theorem blank_inv : blank.Inv :=
  ⟨testRom_legal, by unfold State.StatusValuesLegal; decide, by unfold State.DoutZeroBeyondCount; decide⟩

theorem witness_EveryStepKeepsTheMachineInvariant :
    (pending [.write 0x00 0x02]).Inv ∧ ∃ t, step (pending [.write 0x00 0x02]) = .next t := ⟨blank_inv, _, rfl⟩

theorem witness_NoStepChangesTheRom : ∃ t, step (pending [.reset]) = .next t := ⟨_, rfl⟩

theorem witness_CodeReportsTheLastCommand :
    ((Instr.enc 5).wf = true ∧ Instr.enc 5 ≠ .dec) ∧ decode 0x61 = .illegal .lenOutOfRange ∧
      (∃ t, exec (.romi 7) blank = .next t) ∧ (Instr.romi 7 ≠ .dec ∧ Instr.romi 7 ≠ .pack) ∧
      (∃ t, exec .dec blank = .next t) ∧ (∀ k, Instr.dec ≠ .romi k) ∧
      (∃ t, step (pending [.reset]) = .next t) ∧
      (∃ t, step (pending [.read 0x04]) = .next t) ∧ Event.read 0x04 ≠ .reset :=
  ⟨by decide, by decide, ⟨_, rfl⟩, by decide, ⟨_, rfl⟩, by decide, ⟨_, rfl⟩, ⟨_, rfl⟩, by decide⟩

/-- Each register does change by a writer of its own: DIN, SIN[7], VAL[7], SOUT[0], DOUT. -/
theorem witness_RegistersChangeOnlyByTheirWriters :
    nextHas (step (pending [.write 0x0C 1])) (fun t => t.din != blank.din) = true ∧
      nextHas (step (pending [.write 0x5C 1])) (fun t => t.sin[(7 : Lane)] != blank.sin[(7 : Lane)]) = true ∧
      nextHas (step (pending [.write 0x3C 1])) (fun t => t.val[(7 : Lane)] != blank.val[(7 : Lane)]) = true ∧
      nextHas (step (pending [.write 0x00 0x05])) (fun t => t.sout[(0 : Lane)] != blank.sout[(0 : Lane)]) = true ∧
      nextHas (step { blank with val := blank.val.set 7 1, events := [.write 0x00 0x04] })
        (fun t => t.dout != blank.dout) = true := by decide

/-- Two states that differ in every register a command does not read. -/
theorem witness_ResultsDependOnlyOnTheInputRegisters :
    let u : State := { blank with dout := 7, nbytes := 5, code := 3, sclass := 2, sout := Vector.replicate 8 1 }
    u.rom = blank.rom ∧ u.din = blank.din ∧ u.val = blank.val ∧ u.sin = blank.sin := ⟨rfl, rfl, rfl, rfl⟩

/-- An address beside the written ones for each command. -/
theorem witness_OtherAddressesReadAsBefore :
    (∀ i : Instr, ∃ t, exec i blank = .next t) ∧
      ([0x00, 0x5C, 0x80, 0x0C, 0x18, 0x1C, 0x40, 0x60, 0x7C, 0x24] : List Addr).all
        (fun a => (a &&& 0xFC).toNat != 0x04) = true ∧
      ((0x5F : Addr) &&& 0xFC).toNat < 0x60 ∧ 0x80 ≤ ((0x80 : Addr) &&& 0xFC).toNat ∧
      (((0x18 : Addr) &&& 0xFC).toNat ≠ 0x10 ∧ ((0x18 : Addr) &&& 0xFC).toNat ≠ 0x14) ∧
      ((0x1F : Addr) &&& 0xFC).toNat < 0x20 ∧ 0x40 ≤ ((0x40 : Addr) &&& 0xFC).toNat ∧
      ((0x7C : Addr) &&& 0xFC).toNat ≠ 0x60 + 4 * (0 : Lane).val ∧
      ((0x24 : Addr) &&& 0xFC).toNat ≠ 0x20 + 4 * (0 : Lane).val :=
  ⟨fun i => by cases i <;> exact ⟨_, rfl⟩, by decide⟩

end Sys2Proof.Tests
end

section
/-! PROOFS. Once for each transition: all that a command, an event and a step can do. -/

namespace Sys2Proof.Machine

/-- The state each command ends in, one constructor for each way it can go (40_symbol_rom.md R84, R85; 41_bit_slicer.md
R103, R104; 42_encoder.md R124, R125; 43_decoder.md R154; 44_control.md R170). -/
inductive CommandEffect (s : State) : Instr → State → Prop where
  | nop : CommandEffect s .nop { s with code := 0 }
  | enc {len : BitVec 3} (hlen : lenInRange len = true) : CommandEffect s (.enc len)
      { s with sout := encodeBlock s.rom (bytesOfBlock s.din) len.toNat, code := 0 }
  | encIllegal {len : BitVec 3} (hlen : lenInRange len = false) : CommandEffect s (.enc len) s.reportIllegal
  | decOk {bs : List Byte} (hbs : decodeGroup s.rom s.sin = .ok bs) : CommandEffect s .dec
      { s with dout := blockOfList bs, nbytes := BitVec.ofNat 3 bs.length, code := 0 }
  | decError {e : ErrorKind} (he : decodeGroup s.rom s.sin = .error e) : CommandEffect s .dec (s.reportDecodeError e)
  | slice : CommandEffect s .slice { s with val := slice (bytesOfBlock s.din), code := 0 }
  | pack : CommandEffect s .pack { s with dout := blockOfBytes (pack s.val), nbytes := 5, code := 0 }
  | romf {k : Lane} : CommandEffect s (.romf k) { s with sout := s.sout.set k (romFwd s.rom s.val[k]), code := 0 }
  | romiHit {k : Lane} {v : Value} (hv : romInv s.rom s.sin[k] = .hit v) : CommandEffect s (.romi k)
      { s with val := s.val.set k v, sclass := 0, code := 0 }
  | romiPad {k : Lane} (hpad : romInv s.rom s.sin[k] = .pad) : CommandEffect s (.romi k) { s with sclass := 1, code := 0 }
  | romiMiss {k : Lane} (hmiss : romInv s.rom s.sin[k] = .miss) : CommandEffect s (.romi k)
      { s with sclass := 2, code := 0 }

/-- A command does what its effect says. -/
theorem CommandEffect.exec_eq {i : Instr} {s t : State} (h : CommandEffect s i t) : exec i s = .next t := by
  cases h with
  | nop | slice | pack | romf => rfl
  | enc hlen | encIllegal hlen => simp [exec, execEnc, hlen, codeOk]
  | decOk hd | decError hd => simp [exec, execDec, hd, codeOk]
  | romiHit hr | romiPad hr | romiMiss hr => simp only [exec, execRomi, hr]; rfl

theorem exists_commandEffect (i : Instr) (s : State) : ∃ t, CommandEffect s i t := by
  cases i with
  | nop => exact ⟨_, .nop⟩
  | enc len =>
    cases hlen : lenInRange len with
    | true => exact ⟨_, .enc hlen⟩
    | false => exact ⟨_, .encIllegal hlen⟩
  | dec =>
    cases hd : decodeGroup s.rom s.sin with
    | ok bs => exact ⟨_, .decOk hd⟩
    | error e => exact ⟨_, .decError hd⟩
  | slice => exact ⟨_, .slice⟩
  | pack => exact ⟨_, .pack⟩
  | romf k => exact ⟨_, .romf⟩
  | romi k =>
    cases hr : romInv s.rom s.sin[k] with
    | hit v => exact ⟨_, .romiHit hr⟩
    | pad => exact ⟨_, .romiPad hr⟩
    | miss => exact ⟨_, .romiMiss hr⟩

theorem exec_eq_next_iff {i : Instr} {s t : State} : exec i s = .next t ↔ CommandEffect s i t := by
  refine ⟨fun h => ?_, CommandEffect.exec_eq⟩
  obtain ⟨u, hu⟩ := exists_commandEffect i s
  obtain rfl : u = t := Host.Outcome.next.inj (hu.exec_eq.symm.trans h)
  exact hu

/-- The state each event leads to (20_memory.md R44, R45; 44_control.md R171, R172; 70_reset_and_hazards.md R200). -/
inductive EventEffect (s : State) : Event → State → Prop where
  | command {a : Addr} {d : Word} {i : Instr} {t : State} (ha : regAt a = .cmd) (hd : decode d = .command i)
      (hi : exec i s = .next t) : EventEffect s (.write a d) t
  | illegal {a : Addr} {d : Word} {why : IllegalReason} (ha : regAt a = .cmd) (hd : decode d = .illegal why) :
      EventEffect s (.write a d) s.reportIllegal
  | store {a : Addr} {d : Word} (ha : regAt a ≠ .cmd) : EventEffect s (.write a d) (s.storeReg d (regAt a))
  | read {a : Addr} : EventEffect s (.read a) (s.recordRead a)
  | reset : EventEffect s .reset s.resetRegisters

theorem eventEffect_of_handle {s t : State} {e : Event} (h : s.handle e = .next t) : EventEffect s e t := by
  obtain ⟨a, d, rfl, ha, he⟩ | ⟨a, d, rfl, ha, he⟩ | ⟨a, rfl, he⟩ | ⟨rfl, he⟩ := handle_cases s e <;> rw [he] at h
  · cases hd : decode d with
    | command i => exact .command ha hd (perform_of_decode hd s ▸ h)
    | illegal why =>
      rw [perform_of_illegal hd] at h
      cases h
      exact .illegal ha hd
  · cases h; exact .store ha
  · cases h; exact .read
  · cases h; exact .reset

/-- A step is idle, or it is the effect of the oldest event. -/
theorem step_cases {s t : State} (h : step s = .next t) :
    s.events = [] ∧ t = s ∨
    ∃ e rest, s.events = e :: rest ∧ EventEffect { s with events := rest } e t := by
  cases he : s.events with
  | nil =>
    unfold step at h
    rw [he] at h
    cases h
    exact .inl ⟨rfl, rfl⟩
  | cons e rest => exact .inr ⟨e, rest, rfl, eventEffect_of_handle (step_cons he ▸ h)⟩

end Sys2Proof.Machine
end

section
/-! PROOFS. The machine invariant holds after reset and every step keeps it; no step changes the ROM. -/

namespace Sys2Proof.Machine

/-- The bytes of a block made from a list are the list's, then 0 (43_decoder.md R154). -/
theorem blockByte_blockOfList (bs : List Byte) (j : Fin 5) : blockByte (blockOfList bs) j = bs.getD j.val 0 := by
  simp [blockOfList, blockByte_blockOfBytes]

/-- What leaves the ROM alone keeps the invariant, if CODE and SCLASS get values that are written (10_state.md R29, R30),
NBYTES counts at most 5 bytes and DOUT is 0 beyond them (R27, R28). -/
theorem State.Inv.of_newBlock {s t : State} (h : s.Inv) (hrom : t.rom = s.rom)
    (hcode : t.code ≠ 1 ∧ t.code ≠ 5 ∧ t.code ≠ 6) (hclass : t.sclass ≠ 3) (hcount : t.nbytes.toNat ≤ 5)
    (hzero : t.DoutZeroBeyondCount) : t.Inv := by
  obtain ⟨hlegal, -, -⟩ := h
  obtain ⟨h1, h5, h6⟩ := hcode
  exact ⟨by rwa [State.RomLegal, hrom], ⟨h1, h5, h6, hclass, hcount⟩, hzero⟩

/-- What leaves the ROM and the output block alone keeps the invariant, if CODE and SCLASS get values that are written. -/
theorem State.Inv.of_sameBlock {s t : State} (h : s.Inv) (hrom : t.rom = s.rom) (hdout : t.dout = s.dout)
    (hnbytes : t.nbytes = s.nbytes) (hcode : t.code ≠ 1 ∧ t.code ≠ 5 ∧ t.code ≠ 6) (hclass : t.sclass ≠ 3) : t.Inv := by
  obtain ⟨-, ⟨-, -, -, -, hcount⟩, hzero⟩ := id h
  exact h.of_newBlock hrom hcode hclass (hnbytes ▸ hcount) (by rwa [State.DoutZeroBeyondCount, hdout, hnbytes])

/-- What leaves the status fields alone as well keeps the invariant. -/
theorem State.Inv.of_sameOutputs {s t : State} (h : s.Inv) (hrom : t.rom = s.rom) (hdout : t.dout = s.dout)
    (hnbytes : t.nbytes = s.nbytes) (hcode : t.code = s.code) (hclass : t.sclass = s.sclass) : t.Inv := by
  obtain ⟨-, ⟨h1, h5, h6, h3, -⟩, -⟩ := id h
  exact h.of_sameBlock hrom hdout hnbytes (hcode ▸ ⟨h1, h5, h6⟩) (hclass ▸ h3)

theorem State.Inv.sclass_ne_three {s : State} (h : s.Inv) : s.sclass ≠ 3 := by
  obtain ⟨-, ⟨-, -, -, h3, -⟩, -⟩ := h
  exact h3

theorem State.Inv.reportIllegal {s : State} (h : s.Inv) : s.reportIllegal.Inv :=
  h.of_sameBlock rfl rfl rfl (by simp) h.sclass_ne_three

theorem State.Inv.resetRegisters {s : State} (h : s.Inv) : s.resetRegisters.Inv :=
  h.of_newBlock rfl (by simp) (by simp) (by simp) fun j _ => blockByte_zero j

/-- A failed DEC: the code is one of the decoder's three, and DOUT and NBYTES are 0 (43_decoder.md R155). -/
theorem State.Inv.reportDecodeError {s : State} {e : ErrorKind} (h : s.Inv) (he : decodeGroup s.rom s.sin = .error e) :
    (s.reportDecodeError e).Inv := by
  refine h.of_newBlock rfl ?_ h.sclass_ne_three (by simp) fun j _ => blockByte_zero j
  obtain ⟨bs, hok, -⟩ | ⟨e', herr, hkind⟩ := decodeGroup_cases s.rom s.sin
  · cases he.symm.trans hok
  · obtain rfl : e = e' := Except.error.inj (he.symm.trans herr)
    obtain rfl | rfl | rfl := hkind <;> simp [ErrorKind.code]

/-- A group decodes to at most 5 bytes (43_decoder.md R145). -/
theorem length_le_five_of_decodeGroup {r : Rom} {g : Vector Symbol 8} {bs : List Byte}
    (h : decodeGroup r g = .ok bs) : bs.length ≤ 5 := by
  obtain ⟨bs', hok, -, hle⟩ | ⟨e, herr, -⟩ := decodeGroup_cases r g
  · obtain rfl : bs = bs' := Except.ok.inj (h.symm.trans hok)
    exact hle
  · cases h.symm.trans herr

/-- A successful DEC: NBYTES counts the bytes, and DOUT is 0 beyond them (43_decoder.md R154). -/
theorem State.Inv.decOk {s : State} {bs : List Byte} (h : s.Inv) (hbs : decodeGroup s.rom s.sin = .ok bs) :
    State.Inv { s with dout := blockOfList bs, nbytes := BitVec.ofNat 3 bs.length, code := 0 } := by
  have hlen : bs.length ≤ 5 := length_le_five_of_decodeGroup hbs
  have hcount : (BitVec.ofNat 3 bs.length).toNat = bs.length := by
    rw [BitVec.toNat_ofNat]; omega
  refine h.of_newBlock rfl (by simp) h.sclass_ne_three (hcount.trans_le hlen) fun j hj => ?_
  rw [blockByte_blockOfList]
  exact List.getD_eq_default _ _ (hcount.symm.trans_le hj)

theorem CommandEffect.keepsInv {i : Instr} {s t : State} (h : CommandEffect s i t) (hs : s.Inv) : t.Inv := by
  cases h with
  | nop | enc | slice | romf => exact hs.of_sameBlock rfl rfl rfl (by simp) hs.sclass_ne_three
  | encIllegal => exact hs.reportIllegal
  | decOk hbs => exact hs.decOk hbs
  | decError he => exact hs.reportDecodeError he
  | pack =>
    exact hs.of_newBlock rfl (by simp) hs.sclass_ne_three (by simp) fun j hj => absurd j.isLt (Nat.not_lt.2 hj)
  | romiHit | romiPad | romiMiss => exact hs.of_sameBlock rfl rfl rfl (by simp) (by simp)

theorem EventEffect.keepsInv {e : Event} {s t : State} (h : EventEffect s e t) (hs : s.Inv) : t.Inv := by
  cases h with
  | command _ _ hi => exact (exec_eq_next_iff.1 hi).keepsInv hs
  | illegal => exact hs.reportIllegal
  | store => exact hs.of_sameOutputs (by simp) (by simp) (by simp) (by simp) (by simp)
  | read => exact hs.of_sameOutputs rfl rfl rfl rfl rfl
  | reset => exact hs.resetRegisters

/-- Settles O50: an idle step changes nothing, and every event's effect keeps the invariant. -/
theorem everyStepKeepsTheMachineInvariant : Obligations.EveryStepKeepsTheMachineInvariant := by
  intro s t hs hstep
  obtain ⟨-, rfl⟩ | ⟨e, rest, -, he⟩ := step_cases hstep
  · exact hs
  · exact he.keepsInv (hs.of_sameOutputs rfl rfl rfl rfl rfl)

/-- Settles O51: the ROM at reset is legal by its type, and every other register is 0. -/
theorem resetMeetsTheMachineInvariant : Obligations.ResetMeetsTheMachineInvariant :=
  ⟨Config.rom.legal, by simp [State.StatusValuesLegal, State.reset], fun j _ => blockByte_zero j⟩

theorem EventEffect.rom_eq {e : Event} {s t : State} (h : EventEffect s e t) : t.rom = s.rom := by
  cases h with
  | command _ _ hi => exact (exec_keeps hi).1
  | store => exact State.storeReg_rom s _ _
  | illegal | read | reset => rfl

/-- Settles O52: an idle step changes nothing, and no event's effect changes the ROM. -/
theorem noStepChangesTheRom : Obligations.NoStepChangesTheRom := by
  intro s t hstep
  obtain ⟨-, rfl⟩ | ⟨e, rest, -, he⟩ := step_cases hstep
  · rfl
  · exact he.rom_eq

end Sys2Proof.Machine
end

section
/-! PROOFS. The register map: the fields of STATUS, what a host write leaves to be read back, and the values after reset. -/

namespace Sys2Proof.Machine

theorem busRead_of_regAt {a : Addr} {r : Reg} (h : regAt a = r) (s : State) : busRead s a = s.regWord r := by
  rw [busRead, h]

theorem busWrite_of_regAt {a : Addr} {r : Reg} (h : regAt a = r) (hr : r ≠ .cmd) (d : Word) (s : State) :
    busWrite a d s = .next (s.storeReg d r) := by
  rw [busWrite_of_ne_cmd (h ▸ hr), h]

/-- The map lists the address of `r`, so an access that names `r` has that word address. -/
theorem wordAddress_of_regAt {a x : Addr} {r : Reg} (h : regAt a = r) (hx : r.address = some x) : a &&& 0xFC = x := by
  subst h
  have hmapped : regAt a ≠ .unmapped := fun hu => by simp [hu, Reg.address] at hx
  exact Option.some.inj ((regAt_address a hmapped).symm.trans hx)

theorem toNat_of_regAt {a x : Addr} {r : Reg} (h : regAt a = r) (hx : r.address = some x) :
    (a &&& 0xFC).toNat = x.toNat := congrArg BitVec.toNat (wordAddress_of_regAt h hx)

theorem toNat_of_regAt_val {a : Addr} {k : Lane} (h : regAt a = .val k) : (a &&& 0xFC).toNat = 0x20 + 4 * k.val := by
  rw [toNat_of_regAt h rfl, BitVec.toNat_ofNat]; omega

theorem toNat_of_regAt_sin {a : Addr} {k : Lane} (h : regAt a = .sin k) : (a &&& 0xFC).toNat = 0x40 + 4 * k.val := by
  rw [toNat_of_regAt h rfl, BitVec.toNat_ofNat]; omega

theorem toNat_of_regAt_sout {a : Addr} {k : Lane} (h : regAt a = .sout k) : (a &&& 0xFC).toNat = 0x60 + 4 * k.val := by
  rw [toNat_of_regAt h rfl, BitVec.toNat_ofNat]; omega

/-! ### STATUS -/

/-- An append of bit vectors as a sum. -/
theorem toNat_append_eq_add {m n : Nat} (x : BitVec m) (y : BitVec n) :
    (x ++ y).toNat = x.toNat * 2 ^ n + y.toNat := by
  rw [BitVec.toNat_append, ← Nat.shiftLeft_add_eq_or_of_lt y.isLt, Nat.shiftLeft_eq]

theorem State.statusFields_lt (s : State) : s.code.toNat < 8 ∧ s.nbytes.toNat < 8 ∧ s.sclass.toNat < 4 :=
  ⟨s.code.isLt, s.nbytes.isLt, s.sclass.isLt⟩

/-- The STATUS word as a number: each field at its place (10_state.md R31). -/
theorem State.statusWord_toNat (s : State) :
    s.statusWord.toNat = s.code.toNat + 16 * s.nbytes.toNat + 256 * s.sclass.toNat := by
  obtain ⟨hcode, hnbytes, hclass⟩ := s.statusFields_lt
  simp only [State.statusWord, BitVec.toNat_setWidth, toNat_append_eq_add, BitVec.ofNat_eq_ofNat, BitVec.toNat_ofNat]
  omega

/-- A field of STATUS as a number. -/
theorem State.statusWord_field_toNat (s : State) (start len : Nat) :
    (s.statusWord.extractLsb' start len).toNat =
      (s.code.toNat + 16 * s.nbytes.toNat + 256 * s.sclass.toNat) / 2 ^ start % 2 ^ len := by
  rw [BitVec.extractLsb'_toNat, Nat.shiftRight_eq_div_pow, s.statusWord_toNat]

theorem State.statusWord_code (s : State) : s.statusWord.extractLsb' 0 3 = s.code := by
  apply BitVec.eq_of_toNat_eq
  obtain ⟨hcode, hnbytes, hclass⟩ := s.statusFields_lt
  rw [s.statusWord_field_toNat]
  omega

theorem State.statusWord_nbytes (s : State) : s.statusWord.extractLsb' 4 3 = s.nbytes := by
  apply BitVec.eq_of_toNat_eq
  obtain ⟨hcode, hnbytes, hclass⟩ := s.statusFields_lt
  rw [s.statusWord_field_toNat]
  omega

theorem State.statusWord_sclass (s : State) : s.statusWord.extractLsb' 8 2 = s.sclass := by
  apply BitVec.eq_of_toNat_eq
  obtain ⟨hcode, hnbytes, hclass⟩ := s.statusFields_lt
  rw [s.statusWord_field_toNat]
  omega

theorem State.statusWord_highBits (s : State) : s.statusWord.extractLsb' 10 22 = 0 := by
  apply BitVec.eq_of_toNat_eq
  obtain ⟨hcode, hnbytes, hclass⟩ := s.statusFields_lt
  simp only [s.statusWord_field_toNat, BitVec.ofNat_eq_ofNat, BitVec.toNat_ofNat]
  omega

theorem State.statusWord_bit_eq_false {s : State} {j : Nat}
    (h : (s.code.toNat + 16 * s.nbytes.toNat + 256 * s.sclass.toNat) / 2 ^ j % 2 = 0) :
    s.statusWord.getLsbD j = false := by
  rw [← BitVec.testBit_toNat, s.statusWord_toNat, Nat.testBit_eq_decide_div_mod_eq, h]
  rfl

theorem State.statusWord_bit_three (s : State) : s.statusWord.getLsbD 3 = false := by
  apply State.statusWord_bit_eq_false
  obtain ⟨hcode, hnbytes, hclass⟩ := s.statusFields_lt
  omega

theorem State.statusWord_bit_seven (s : State) : s.statusWord.getLsbD 7 = false := by
  apply State.statusWord_bit_eq_false
  obtain ⟨hcode, hnbytes, hclass⟩ := s.statusFields_lt
  omega

/-- Settles O13: the address 0x04 names STATUS, whose word as a number places the fields. -/
theorem statusHoldsItsThreeFields : Obligations.StatusHoldsItsThreeFields := by
  have hreg : regAt 0x04 = .status := by decide
  refine ⟨fun s => ?_, by decide⟩
  rw [busRead_of_regAt hreg]
  exact ⟨s.statusWord_code, s.statusWord_nbytes, s.statusWord_sclass, s.statusWord_bit_three, s.statusWord_bit_seven,
    s.statusWord_highBits, fun d => busWrite_of_regAt hreg (by decide) d s⟩

/-! ### Writes read back -/

/-- The low field of a word, zero-extended, is the word with its other bits 0 (10_state.md R35). -/
theorem setWidth_extractLsb'_zero (d : Word) {n : Nat} (hn : n ≤ 32) :
    (d.extractLsb' 0 n).setWidth 32 = d &&& BitVec.ofNat 32 (2 ^ n - 1) := by
  have hpow : 2 ^ n ≤ 2 ^ 32 := Nat.pow_le_pow_right (by decide) hn
  have hmask : 2 ^ n - 1 < 2 ^ 32 := by omega
  have hfield : d.toNat % 2 ^ n < 2 ^ 32 := (Nat.mod_lt _ (Nat.two_pow_pos n)).trans_le hpow
  apply BitVec.eq_of_toNat_eq
  rw [BitVec.toNat_setWidth, BitVec.extractLsb'_toNat, Nat.shiftRight_zero, Nat.mod_eq_of_lt hfield, BitVec.toNat_and,
    BitVec.toNat_ofNat, Nat.mod_eq_of_lt hmask, Nat.and_two_pow_sub_one_eq_mod]

theorem State.storeReg_val_self (s : State) (d : Word) (k : Lane) :
    (s.storeReg d (.val k)).val[k] = d.extractLsb' 0 5 := by simp [State.storeReg]

theorem State.storeReg_sin_self (s : State) (d : Word) (k : Lane) :
    (s.storeReg d (.sin k)).sin[k] = d.extractLsb' 0 24 := by simp [State.storeReg]

theorem State.storeReg_dinHi (s : State) (d : Word) :
    (s.storeReg d .dinHi).din.extractLsb' 32 8 = d.extractLsb' 0 8 := BitVec.extractLsb'_append_eq_left

theorem State.storeReg_dinLo (s : State) (d : Word) : (s.storeReg d .dinLo).din.extractLsb' 0 32 = d := by
  rw [State.storeReg, BitVec.extractLsb'_append_eq_of_add_le (by decide), BitVec.extractLsb'_eq_self]

/-- Settles O14: each address names its register, and the word of the stored field is the written word's low bits. -/
theorem aWrittenFieldReadsBackTruncated : Obligations.AWrittenFieldReadsBackTruncated := by
  intro s d
  have hval : ∀ k : Lane, regAt (BitVec.ofNat 8 (0x20 + 4 * k.val)) = .val k := by decide
  have hsin : ∀ k : Lane, regAt (BitVec.ofNat 8 (0x40 + 4 * k.val)) = .sin k := by decide
  have hhi : regAt 0x08 = .dinHi := by decide
  have hlo : regAt 0x0C = .dinLo := by decide
  refine ⟨fun k => ⟨_, busWrite_of_regAt (hval k) nofun d s, s.storeReg_val_self d k, s.storeReg_code d _, ?_⟩,
    fun k => ⟨_, busWrite_of_regAt (hsin k) nofun d s, s.storeReg_sin_self d k, s.storeReg_code d _, ?_⟩,
    ⟨_, busWrite_of_regAt hhi nofun d s, s.storeReg_dinHi d, s.storeReg_code d _, ?_⟩,
    ⟨_, busWrite_of_regAt hlo nofun d s, s.storeReg_dinLo d, s.storeReg_code d _, ?_⟩⟩
  · rw [busRead_of_regAt (hval k), State.regWord, s.storeReg_val_self]
    exact setWidth_extractLsb'_zero d (by decide)
  · rw [busRead_of_regAt (hsin k), State.regWord, s.storeReg_sin_self]
    exact setWidth_extractLsb'_zero d (by decide)
  · rw [busRead_of_regAt hhi, State.regWord, s.storeReg_dinHi]
    exact setWidth_extractLsb'_zero d (by decide)
  · rw [busRead_of_regAt hlo, State.regWord, s.storeReg_dinLo]

/-! ### Reset -/

/-- Settles O21: the lanes of a replicated vector are its element, and reset writes no ROM. -/
theorem afterResetEveryRegisterIsZero : Obligations.AfterResetEveryRegisterIsZero :=
  ⟨rfl, rfl, rfl, rfl, rfl, fun k => by simp [State.reset], State.resetRegisters_rom⟩

end Sys2Proof.Machine
end

section
/-! PROOFS. Which commands and accesses write a register, what the host still reads as before, and what a result depends
on. -/

namespace Sys2Proof.Machine

/-! ### What each register is written by -/

theorem getElem_set_eq_or {α : Type} (v : Vector α 8) (j k : Lane) (x : α) :
    (v.set j x)[k] = v[k] ∨ j = k := by
  by_cases h : j = k
  · exact .inr h
  · exact .inl (Vector.getElem_set_ne _ _ (Fin.val_ne_of_ne h))

/-- 10_state.md R24. -/
theorem exec_val_eq_or {i : Instr} {s t : State} (h : exec i s = .next t) (k : Lane) :
    t.val[k] = s.val[k] ∨ i = .slice ∨ i = .romi k := by
  cases exec_eq_next_iff.1 h with
  | slice => exact .inr (.inl rfl)
  | romiHit => exact (getElem_set_eq_or _ _ k _).imp_right fun hk => .inr (congrArg _ hk)
  | _ => exact .inl rfl

/-- 10_state.md R26. -/
theorem exec_sout_eq_or {i : Instr} {s t : State} (h : exec i s = .next t) (k : Lane) :
    t.sout[k] = s.sout[k] ∨ (∃ len, i = .enc len) ∨ i = .romf k := by
  cases exec_eq_next_iff.1 h with
  | enc => exact .inr (.inl ⟨_, rfl⟩)
  | romf => exact (getElem_set_eq_or _ _ k _).imp_right fun hk => .inr (congrArg _ hk)
  | _ => exact .inl rfl

/-- 10_state.md R27. -/
theorem exec_dout_eq_or {i : Instr} {s t : State} (h : exec i s = .next t) : t.dout = s.dout ∨ i = .dec ∨ i = .pack := by
  cases exec_eq_next_iff.1 h with
  | decOk | decError => exact .inr (.inl rfl)
  | pack => exact .inr (.inr rfl)
  | _ => exact .inl rfl

/-- 10_state.md R23. -/
theorem State.storeReg_din_eq_or (s : State) (d : Word) (r : Reg) :
    (s.storeReg d r).din = s.din ∨ r = .dinHi ∨ r = .dinLo := by
  cases r with
  | dinHi => exact .inr (.inl rfl)
  | dinLo => exact .inr (.inr rfl)
  | _ => exact .inl rfl

/-- 10_state.md R25. -/
theorem State.storeReg_sin_eq_or (s : State) (d : Word) (r : Reg) (k : Lane) :
    (s.storeReg d r).sin[k] = s.sin[k] ∨ r = .sin k := by
  cases r with
  | sin j => exact (getElem_set_eq_or _ _ k _).imp_right (congrArg _)
  | _ => exact .inl rfl

theorem State.storeReg_val_eq_or (s : State) (d : Word) (r : Reg) (k : Lane) :
    (s.storeReg d r).val[k] = s.val[k] ∨ r = .val k := by
  cases r with
  | val j => exact (getElem_set_eq_or _ _ k _).imp_right (congrArg _)
  | _ => exact .inl rfl

/-- Settles O54: a command's writers through its effect, a bus write's through the register its address names. -/
theorem registersChangeOnlyByTheirWriters : Obligations.RegistersChangeOnlyByTheirWriters := by
  intro s t e rest hev hne hstep writesTo commands
  have heffect : EventEffect { s with events := rest } e t := eventEffect_of_handle (step_cons hev ▸ hstep)
  cases heffect with
  | @command a d i _ ha hd hi =>
    have hcommand : commands i := ⟨a, d, rfl, (regAt_eq_cmd_iff a).1 ha, hd⟩
    obtain ⟨-, hdin, hsin, -, -⟩ := exec_keeps hi
    refine ⟨fun h => absurd hdin h, fun k h => absurd (by rw [hsin]) h, fun k h => ?_, fun k h => ?_, fun h => ?_⟩
    · obtain rfl | rfl := (exec_val_eq_or hi k).resolve_left h
      · exact .inr (.inl hcommand)
      · exact .inr (.inr hcommand)
    · obtain ⟨len, rfl⟩ | rfl := (exec_sout_eq_or hi k).resolve_left h
      · exact .inl ⟨len, hcommand⟩
      · exact .inr hcommand
    · obtain rfl | rfl := (exec_dout_eq_or hi).resolve_left h
      · exact .inl hcommand
      · exact .inr hcommand
  | @store a d ha =>
    have hwrite : ∀ n, (a &&& 0xFC).toNat = n → writesTo n := fun n hn => ⟨a, d, rfl, hn⟩
    refine ⟨fun h => ?_, fun k h => ?_, fun k h => ?_, fun k h => absurd (by simp) h, fun h => absurd (by simp) h⟩
    · exact ((State.storeReg_din_eq_or _ d _).resolve_left h).imp
        (fun hr => hwrite _ (toNat_of_regAt hr rfl)) fun hr => hwrite _ (toNat_of_regAt hr rfl)
    · exact hwrite _ (toNat_of_regAt_sin ((State.storeReg_sin_eq_or _ d _ k).resolve_left h))
    · exact .inl (hwrite _ (toNat_of_regAt_val ((State.storeReg_val_eq_or _ d _ k).resolve_left h)))
  | illegal | read =>
    exact ⟨absurd rfl, fun _ => absurd rfl, fun _ => absurd rfl, fun _ => absurd rfl, absurd rfl⟩
  | reset => exact absurd rfl hne

/-! ### What the host reads after a command -/

/-- Settles O57: the word of a register is a function of its field, and each field the command does not write stands. -/
theorem otherAddressesReadAsBefore : Obligations.OtherAddressesReadAsBefore := by
  intro s t i a h wa hstatus hother
  obtain ⟨-, hdin, hsin, -, -⟩ := exec_keeps h
  cases hr : regAt a <;> rw [busRead_of_regAt hr, busRead_of_regAt hr]
  case cmd | unmapped => rfl
  case status => exact absurd (toNat_of_regAt hr rfl) hstatus
  case dinHi | dinLo => simp only [State.regWord, hdin]
  case sin k => simp only [State.regWord, hsin]
  case val k =>
    have hwa := toNat_of_regAt_val hr
    obtain hk | rfl | rfl := exec_val_eq_or h k
    · simp only [State.regWord, hk]
    · omega
    · exact absurd hwa hother
  case sout k =>
    have hwa := toNat_of_regAt_sout hr
    obtain hk | ⟨len, rfl⟩ | rfl := exec_sout_eq_or h k
    · simp only [State.regWord, hk]
    · omega
    · exact absurd hwa hother
  case doutHi =>
    have hwa : wa = 0x10 := toNat_of_regAt hr rfl
    obtain hd | rfl | rfl := exec_dout_eq_or h
    · simp only [State.regWord, hd]
    · exact absurd hwa hother.1
    · exact absurd hwa hother.1
  case doutLo =>
    have hwa : wa = 0x14 := toNat_of_regAt hr rfl
    obtain hd | rfl | rfl := exec_dout_eq_or h
    · simp only [State.regWord, hd]
    · exact absurd hwa hother.2
    · exact absurd hwa hother.2

/-! ### What a result depends on -/

/-- Two runs from `s` to `t` and from `s'` to `t'` agree on CODE and the input registers, and each output register is left
alone in both or written alike in both. -/
def ResultsAgree (s s' t t' : State) : Prop :=
  t.code = t'.code ∧ t.din = t'.din ∧ t.val = t'.val ∧ t.sin = t'.sin ∧
    (∀ k : Lane, t.sout[k] = s.sout[k] ∧ t'.sout[k] = s'.sout[k] ∨ t.sout[k] = t'.sout[k]) ∧
    (t.dout = s.dout ∧ t'.dout = s'.dout ∨ t.dout = t'.dout) ∧
    (t.nbytes = s.nbytes ∧ t'.nbytes = s'.nbytes ∨ t.nbytes = t'.nbytes) ∧
    (t.sclass = s.sclass ∧ t'.sclass = s'.sclass ∨ t.sclass = t'.sclass)

/-- The effect of a command on one state is, with the same inputs, its effect on the other. -/
theorem CommandEffect.exists_resultsAgree {i : Instr} {s s' t : State} (h : CommandEffect s i t) (hrom : s.rom = s'.rom)
    (hdin : s.din = s'.din) (hval : s.val = s'.val) (hsin : s.sin = s'.sin) :
    ∃ t', CommandEffect s' i t' ∧ ResultsAgree s s' t t' := by
  unfold ResultsAgree
  cases h with
  | nop => exact ⟨_, .nop, by simp [hdin, hval, hsin]⟩
  | enc hlen => exact ⟨_, .enc hlen, by simp [hrom, hdin, hval, hsin]⟩
  | encIllegal hlen => exact ⟨_, .encIllegal hlen, by simp [hdin, hval, hsin]⟩
  | decOk hbs => exact ⟨_, .decOk (hrom ▸ hsin ▸ hbs), by simp [hdin, hval, hsin]⟩
  | decError he => exact ⟨_, .decError (hrom ▸ hsin ▸ he), by simp [hdin, hval, hsin]⟩
  | slice => exact ⟨_, .slice, by simp [hdin, hsin]⟩
  | pack => exact ⟨_, .pack, by simp [hdin, hval, hsin]⟩
  | @romf k =>
    refine ⟨_, .romf, rfl, hdin, hval, hsin, fun j => ?_, by simp, by simp, by simp⟩
    by_cases hj : j = k
    · exact .inr (by simp [hj, hrom, hval])
    · exact .inl ⟨(getElem_set_eq_or _ k j _).resolve_right (Ne.symm hj),
        (getElem_set_eq_or _ k j _).resolve_right (Ne.symm hj)⟩
  | romiHit hv => exact ⟨_, .romiHit (hrom ▸ hsin ▸ hv), by simp [hdin, hval, hsin]⟩
  | romiPad hpad => exact ⟨_, .romiPad (hrom ▸ hsin ▸ hpad), by simp [hdin, hval, hsin]⟩
  | romiMiss hmiss => exact ⟨_, .romiMiss (hrom ▸ hsin ▸ hmiss), by simp [hdin, hval, hsin]⟩

/-- Settles O55: every command has an effect on the first state, and the second state has one that agrees with it. -/
theorem resultsDependOnlyOnTheInputRegisters : Obligations.ResultsDependOnlyOnTheInputRegisters := by
  intro s s' i hrom hdin hval hsin
  obtain ⟨t, h⟩ := exists_commandEffect i s
  obtain ⟨t', h', hagree⟩ := h.exists_resultsAgree hrom hdin hval hsin
  exact ⟨t, t', h.exec_eq, h'.exec_eq, hagree⟩

end Sys2Proof.Machine
end

section
/-! PROOFS. The bus: what an access does at each word address, one step of the queue, the halves of DIN, the order of
two writes, and a command performed twice. -/

namespace Sys2Proof.Machine

/-! ### One access -/

/-- Settles O10: the map names the register, and the store writes that register's field or nothing. -/
theorem aBusWriteDoesWhatItsAddressSays : Obligations.ABusWriteDoesWhatItsAddressSays := by
  intro s a d
  obtain ⟨hcmd, hstatus, hdinHi, hdinLo, hdoutHi, hdoutLo, hval, hsin, hsout, hunmapped⟩ := regAt_table a
  refine ⟨fun h => busWrite_cmd (hcmd h) d s, fun h => busWrite_of_regAt (hdinHi h) nofun d s,
    fun h => busWrite_of_regAt (hdinLo h) nofun d s, fun k h => busWrite_of_regAt (hval k h) nofun d s,
    fun k h => busWrite_of_regAt (hsin k h) nofun d s, ?_, fun k h => busWrite_of_regAt (hsout k h) nofun d s,
    fun h => busWrite_of_regAt (hunmapped h) nofun d s⟩
  rintro (h | h | h)
  · exact busWrite_of_regAt (hstatus h) nofun d s
  · exact busWrite_of_regAt (hdoutHi h) nofun d s
  · exact busWrite_of_regAt (hdoutLo h) nofun d s

/-- The STATUS word is the word of its number (10_state.md R31). -/
theorem State.statusWord_eq_ofNat (s : State) :
    s.statusWord = BitVec.ofNat 32 (s.code.toNat + 16 * s.nbytes.toNat + 256 * s.sclass.toNat) := by
  rw [← s.statusWord_toNat, BitVec.ofNat_toNat, BitVec.setWidth_eq]

/-- Settles O11: the map names the register, whose word is read; a read only appends to the list of answers. -/
theorem aBusReadReturnsTheRegister : Obligations.ABusReadReturnsTheRegister := by
  intro s a
  obtain ⟨hcmd, hstatus, hdinHi, hdinLo, hdoutHi, hdoutLo, hval, hsin, hsout, hunmapped⟩ := regAt_table a
  exact ⟨fun h => busRead_of_regAt (hcmd h) s,
    fun h => (busRead_of_regAt (hstatus h) s).trans s.statusWord_eq_ofNat,
    fun h => busRead_of_regAt (hdinHi h) s, fun h => busRead_of_regAt (hdinLo h) s,
    fun h => busRead_of_regAt (hdoutHi h) s, fun h => busRead_of_regAt (hdoutLo h) s,
    fun k h => busRead_of_regAt (hval k h) s, fun k h => busRead_of_regAt (hsin k h) s,
    fun k h => busRead_of_regAt (hsout k h) s, fun h => busRead_of_regAt (hunmapped h) s,
    s.recordRead a, rfl, rfl⟩

/-- No bus write is trapped (60_exceptions.md R185). -/
theorem busWrite_next (a : Addr) (d : Word) (s : State) : ∃ t, busWrite a d s = .next t := by
  by_cases h : regAt a = .cmd
  · rw [busWrite_cmd h]
    exact perform_next d s
  · exact ⟨_, busWrite_of_ne_cmd h d s⟩

/-- Settles O12: an access looks at its address through the register alone, which the word address names too. -/
theorem accessesIgnoreTheTwoLowAddressBits : Obligations.AccessesIgnoreTheTwoLowAddressBits := by
  intro s a d
  have hreg : regAt (a &&& 0xFC) = regAt a := regAt_wordAddress a
  refine ⟨?_, ?_, busWrite_next a d s⟩
  · simp only [busWrite, hreg]
  · simp only [busRead, hreg]

/-- Settles O7: the step handles the oldest event, and the word of a register does not depend on the queue. -/
theorem aStepPerformsTheOldestAccess : Obligations.AStepPerformsTheOldestAccess := by
  refine fun s rest => ⟨fun a d h => step_cons h, fun a h => ?_, fun h => step_cons h⟩
  rw [step_cons h, State.handle, State.recordRead, busRead, State.regWord_withEvents, ← busRead]

/-! ### The two halves of DIN -/

/-- Both halves written, the upper one first (20_memory.md R54). -/
theorem State.storeReg_dinHi_dinLo (s : State) (d e : Word) :
    (s.storeReg d .dinHi).storeReg e .dinLo = { s with din := d.extractLsb' 0 8 ++ e } :=
  congrArg (fun hi : Byte => { s with din := hi ++ e }) (s.storeReg_dinHi d)

/-- Both halves written, the lower one first. -/
theorem State.storeReg_dinLo_dinHi (s : State) (d e : Word) :
    (s.storeReg e .dinLo).storeReg d .dinHi = { s with din := d.extractLsb' 0 8 ++ e } :=
  congrArg (fun lo : Word => { s with din := d.extractLsb' 0 8 ++ lo }) (s.storeReg_dinLo e)

/-- The word that `ldin` builds for DIN_LO is its four bytes side by side (20_memory.md R54). -/
theorem shiftedBytes_eq_append (b1 b2 b3 b4 : Byte) :
    (b1.setWidth 32 <<< 24 ||| b2.setWidth 32 <<< 16 ||| b3.setWidth 32 <<< 8 ||| b4.setWidth 32 : Word) =
      b1 ++ b2 ++ b3 ++ b4 := by
  apply BitVec.eq_of_getLsbD_eq
  intro i hi
  simp only [BitVec.getLsbD_append]
  interval_cases i <;> simp

/-- A block is its upper byte and its lower word. -/
theorem block_eq_byte_append_word (b0 b1 b2 b3 b4 : Byte) :
    (b0 ++ b1 ++ b2 ++ b3 ++ b4 : Block) = b0 ++ (b1 ++ b2 ++ b3 ++ b4 : Word) := by
  apply BitVec.eq_of_toNat_eq
  simp only [toNat_append_eq_add]
  omega

/-- The two words in which the host reads a block (20_memory.md R54). -/
theorem words_of_block {w : Block} {b : Byte} {x : Word} (h : w = b ++ x) :
    (w.extractLsb' 32 8).setWidth 32 = b.setWidth 32 ∧ w.extractLsb' 0 32 = x := by
  rw [h, BitVec.extractLsb'_append_eq_left, BitVec.extractLsb'_append_eq_right]
  exact ⟨rfl, rfl⟩

/-- Settles O17: either order of the two writes leaves the byte and the word side by side, and a read takes them apart. -/
theorem blocksAreWrittenMostSignificantByteFirst : Obligations.BlocksAreWrittenMostSignificantByteFirst := by
  intro s b0 b1 b2 b3 b4
  have hdinHi : regAt 0x08 = .dinHi := by decide
  have hdinLo : regAt 0x0C = .dinLo := by decide
  have hdoutHi : regAt 0x10 = .doutHi := by decide
  have hdoutLo : regAt 0x14 = .doutLo := by decide
  have hbyte : (b0.setWidth 32 : Word).extractLsb' 0 8 = b0 := by
    rw [← BitVec.setWidth_eq_extractLsb' (by decide), BitVec.setWidth_setWidth_of_le _ (by decide), BitVec.setWidth_eq]
  rw [shiftedBytes_eq_append, block_eq_byte_append_word]
  refine ⟨⟨_, busWrite_of_regAt hdinHi nofun _ s, ?_⟩, ⟨_, busWrite_of_regAt hdinLo nofun _ s, ?_⟩, fun h => ?_,
    fun h => ?_⟩
  · rw [busWrite_of_regAt hdinLo nofun, State.storeReg_dinHi_dinLo, hbyte]
  · rw [busWrite_of_regAt hdinHi nofun, State.storeReg_dinLo_dinHi, hbyte]
  · rw [busRead_of_regAt hdinHi, busRead_of_regAt hdinLo]
    exact words_of_block h
  · rw [busRead_of_regAt hdoutHi, busRead_of_regAt hdoutLo]
    exact words_of_block h

/-! ### The order of two writes -/

/-- Stores to different registers may come in either order: they write different fields, halves or lanes. -/
theorem State.storeReg_comm (s : State) (d e : Word) {r q : Reg} (hne : r ≠ q) :
    (s.storeReg d r).storeReg e q = (s.storeReg e q).storeReg d r := by
  cases r with
  | dinHi =>
    cases q with
    | dinHi => exact absurd rfl hne
    | dinLo => rw [storeReg_dinHi_dinLo, storeReg_dinLo_dinHi]
    | _ => rfl
  | dinLo =>
    cases q with
    | dinLo => exact absurd rfl hne
    | dinHi => rw [storeReg_dinHi_dinLo, storeReg_dinLo_dinHi]
    | _ => rfl
  | val k =>
    cases q with
    | val j =>
      have hlane : k.val ≠ j.val := fun h => hne (congrArg Reg.val (Fin.ext h))
      simp only [State.storeReg, Vector.set_comm _ _ hlane]
    | _ => rfl
  | sin k =>
    cases q with
    | sin j =>
      have hlane : k.val ≠ j.val := fun h => hne (congrArg Reg.sin (Fin.ext h))
      simp only [State.storeReg, Vector.set_comm _ _ hlane]
    | _ => rfl
  | cmd | status | doutHi | doutLo | sout | unmapped => rfl

/-- Different words name different registers, but that several are unmapped (20_memory.md R49). -/
theorem regAt_ne_or_unmapped {a b : Addr} (h : a &&& 0xFC ≠ b &&& 0xFC) :
    regAt a ≠ regAt b ∨ regAt a = .unmapped ∧ regAt b = .unmapped := by
  by_cases heq : regAt a = regAt b
  · by_cases hu : regAt b = .unmapped
    · exact .inr ⟨heq.trans hu, hu⟩
    · exact absurd (wordAddress_of_regAt heq (regAt_address b hu)) h
  · exact .inl heq

/-- A step that takes a write to a data register off the queue. -/
theorem step_write {a : Addr} (ha : regAt a ≠ .cmd) (s : State) (d : Word) (rest : List Event) :
    step { s with events := .write a d :: rest } = .next { s.storeReg d (regAt a) with events := rest } := by
  rw [← s.storeReg_withEvents, step_cons rfl]
  exact busWrite_of_ne_cmd ha d _

theorem stepN_two_writes {a b : Addr} (ha : regAt a ≠ .cmd) (hb : regAt b ≠ .cmd) (s : State) (d e : Word)
    (rest : List Event) :
    stepN 2 { s with events := .write a d :: .write b e :: rest } =
      .next { (s.storeReg d (regAt a)).storeReg e (regAt b) with events := rest } := by
  rw [stepN_succ (step_write ha s d _), stepN_succ (step_write hb _ e rest), stepN]

/-- Settles O16: the two steps are the two stores, which commute; stores to unmapped words leave the state. -/
theorem writesToDifferentWordsCommute : Obligations.WritesToDifferentWordsCommute := by
  intro s a b d e rest hab ha hb
  have ha' : regAt a ≠ .cmd := mt (regAt_eq_cmd_iff a).1 ha
  have hb' : regAt b ≠ .cmd := mt (regAt_eq_cmd_iff b).1 hb
  refine ⟨_, stepN_two_writes ha' hb' s d e rest, ?_⟩
  rw [stepN_two_writes hb' ha']
  obtain hne | ⟨hua, hub⟩ := regAt_ne_or_unmapped hab
  · rw [s.storeReg_comm d e hne]
  · rw [hua, hub]; rfl

/-! ### A command performed twice -/

/-- A command's effect is its effect on the state it leads to: it reads none of the registers it writes
(20_memory.md R48). -/
theorem CommandEffect.idempotent {i : Instr} {s t : State} (h : CommandEffect s i t) : CommandEffect t i t := by
  cases h with
  | nop => exact .nop
  | enc hlen => exact .enc hlen
  | encIllegal hlen => exact .encIllegal hlen
  | decOk hbs => exact .decOk hbs
  | decError he => exact .decError he
  | slice => exact .slice
  | pack => exact .pack
  | @romf k =>
    have hrepeat := CommandEffect.romf (k := k)
      (s := { s with sout := s.sout.set k (romFwd s.rom s.val[k]), code := 0 })
    rwa [Vector.set_set] at hrepeat
  | @romiHit k v hv =>
    have hrepeat := CommandEffect.romiHit (s := { s with val := s.val.set k v, sclass := 0, code := 0 }) hv
    rwa [Vector.set_set] at hrepeat
  | romiPad hpad => exact .romiPad hpad
  | romiMiss hmiss => exact .romiMiss hmiss

/-- Settles O15: an illegal word writes CODE 7 again, and a command has its effect again. -/
theorem repeatingACommandWordChangesNothingMore : Obligations.RepeatingACommandWordChangesNothingMore := by
  intro d s t h
  cases hd : decode d with
  | command i =>
    rw [perform_of_decode hd] at h ⊢
    exact (exec_eq_next_iff.1 h).idempotent.exec_eq
  | illegal why =>
    rw [perform_of_illegal hd] at h ⊢
    cases h
    rfl

end Sys2Proof.Machine
end

section
/-! PROOFS. The command word: which words are legal, and that decoding and encoding are inverse to each other. -/

namespace Sys2Proof

/-! ### Legality -/

/-- `legal(d)` with the fields read off the word as a number (30_encoding.md R65). -/
theorem legal_iff (d : Word) :
    legal d = true ↔
      d.toNat / 1024 = 0 ∧
        ((d.toNat % 16 = 0 ∨ d.toNat % 16 = 2 ∨ d.toNat % 16 = 3 ∨ d.toNat % 16 = 4) ∧
            d.toNat / 16 % 8 = 0 ∧ d.toNat / 128 % 8 = 0 ∨
          d.toNat % 16 = 1 ∧ 1 ≤ d.toNat / 16 % 8 ∧ d.toNat / 16 % 8 ≤ 5 ∧ d.toNat / 128 % 8 = 0 ∨
          (d.toNat % 16 = 5 ∨ d.toNat % 16 = 6) ∧ d.toNat / 16 % 8 = 0) := by
  have hrsv : rsvField d = 0 ↔ d.toNat / 1024 = 0 := by rw [← rsvField_toNat]; exact BitVec.toNat_inj.symm
  have hlen : lenField d = 0 ↔ d.toNat / 16 % 8 = 0 := by rw [← lenField_toNat]; exact BitVec.toNat_inj.symm
  have hlane : laneField d = 0 ↔ d.toNat / 128 % 8 = 0 := by rw [← laneField_toNat]; exact BitVec.toNat_inj.symm
  unfold legal
  rw [opField_toNat, Bool.and_eq_true, beq_iff_eq, hrsv]
  refine and_congr_right fun _ => ?_
  split
  -- The reserved opcodes (30_encoding.md R67).
  case h_8 =>
    simp only [imp_false, Bool.false_eq_true, false_iff] at *
    omega
  all_goals
    simp only [Bool.and_eq_true, beq_iff_eq, lenInRange_iff, lenField_toNat, hlen, hlane]
    omega

/-- Settles O4: the predicate on the fields, and an illegal word decodes to no command. -/
theorem legalityIsTheFieldPredicate : Obligations.LegalityIsTheFieldPredicate :=
  fun d => ⟨legal_iff d, fun h => Machine.perform_of_illegal (decode_of_not_legal h)⟩

/-! ### Decoding and encoding -/

/-- Decoding undoes encoding (30_encoding.md R68). -/
theorem decode_encode {i : Instr} (hi : i.wf = true) : decode (encode i) = .command i := by
  cases i with
  | nop | dec | slice | pack => decide
  | enc len => revert len; decide
  | romf k => revert k; decide
  | romi k => revert k; decide

/-- No word decodes to a command it is not the encoding of: a legal word's fields determine its number. -/
theorem encode_of_decode {d : Word} {i : Instr} (h : decode d = .command i) : i.wf = true ∧ encode i = d := by
  have hlegal : legal d = true := by
    by_contra hl
    cases (decode_of_not_legal (Bool.eq_false_iff.2 hl)).symm.trans h
  have hfields := (legal_iff d).1 hlegal
  have hop := opField_toNat d
  have hlane : (laneOperand d).val = d.toNat / 128 % 8 := laneField_toNat d
  obtain ⟨ho, hd⟩ | ⟨ho, hlen, hd⟩ | ⟨ho, hd⟩ | ⟨ho, hd⟩ | ⟨ho, hd⟩ | ⟨ho, hd⟩ | ⟨ho, hd⟩ := decode_of_legal hlegal <;>
    obtain rfl := Decoded.command.inj (hd.symm.trans h)
  · exact ⟨rfl, BitVec.eq_of_toNat_eq (show 0 = d.toNat by omega)⟩
  · refine ⟨hlen, BitVec.eq_of_toNat_eq ?_⟩
    rw [encode_enc_toNat, lenField_toNat]
    omega
  · exact ⟨rfl, BitVec.eq_of_toNat_eq (show 2 = d.toNat by omega)⟩
  · exact ⟨rfl, BitVec.eq_of_toNat_eq (show 3 = d.toNat by omega)⟩
  · exact ⟨rfl, BitVec.eq_of_toNat_eq (show 4 = d.toNat by omega)⟩
  · refine ⟨rfl, BitVec.eq_of_toNat_eq ?_⟩
    rw [encode_romf_toNat, hlane]
    omega
  · refine ⟨rfl, BitVec.eq_of_toNat_eq ?_⟩
    rw [encode_romi_toNat, hlane]
    omega

/-- Settles O1: a word that decodes to a command is its encoding, and decoding undoes encoding. -/
theorem decodeGivesACommandExactlyOnItsEncoding : Obligations.DecodeGivesACommandExactlyOnItsEncoding := by
  refine fun d i => ⟨encode_of_decode, ?_⟩
  rintro ⟨hi, rfl⟩
  exact decode_encode hi

/-! ### The 25 words -/

/-- The well-formed commands, in the order of 30_encoding.md R64. -/
def wellFormedCommands : List Instr :=
  .nop :: [1, 2, 3, 4, 5].map .enc ++ [.dec, .slice, .pack] ++
    (List.finRange 8).map .romf ++ (List.finRange 8).map .romi

theorem mem_wellFormedCommands_iff (i : Instr) : i ∈ wellFormedCommands ↔ i.wf = true := by
  cases i with
  | nop | dec | slice | pack => decide
  | enc len => revert len; decide
  | romf k => revert k; decide
  | romi k => revert k; decide

/-- A word is illegal exactly when it is the encoding of no well-formed command. -/
theorem decode_illegal_iff (d : Word) : (∃ why, decode d = .illegal why) ↔ d ∉ wellFormedCommands.map encode := by
  have hmem : d ∈ wellFormedCommands.map encode ↔ ∃ i, decode d = .command i := by
    simp only [List.mem_map, mem_wellFormedCommands_iff, decodeGivesACommandExactlyOnItsEncoding d]
  rw [hmem]
  cases decode d <;> simp

theorem encode_enc (n : Nat) (h : n < 8) : encode (.enc (BitVec.ofNat 3 n)) = BitVec.ofNat 32 (n * 16 + 1) := by
  apply BitVec.eq_of_toNat_eq
  rw [encode_enc_toNat, BitVec.toNat_ofNat, BitVec.toNat_ofNat]
  omega

theorem encode_romf (k : Lane) : encode (.romf k) = BitVec.ofNat 32 (k.val * 128 + 5) := by
  apply BitVec.eq_of_toNat_eq
  rw [encode_romf_toNat, BitVec.toNat_ofNat]
  omega

theorem encode_romi (k : Lane) : encode (.romi k) = BitVec.ofNat 32 (k.val * 128 + 6) := by
  apply BitVec.eq_of_toNat_eq
  rw [encode_romi_toNat, BitVec.toNat_ofNat]
  omega

/-- Settles O2: each listed word is an encoding, and the list is that of all encodings. -/
theorem theLegalWordsAreTheTwentyFiveListed : Obligations.TheLegalWordsAreTheTwentyFiveListed := by
  refine ⟨decode_encode (i := .nop) rfl, fun n h1 h5 => ?_, decode_encode (i := .dec) rfl, decode_encode (i := .slice) rfl,
    decode_encode (i := .pack) rfl, fun k => ?_, fun k => ?_, decode_illegal_iff⟩
  · have hlen : lenInRange (BitVec.ofNat 3 n) = true := by
      rw [lenInRange_iff, BitVec.toNat_ofNat]; omega
    rw [← encode_enc n (by omega)]
    exact decode_encode hlen
  · rw [← encode_romf]
    exact decode_encode rfl
  · rw [← encode_romi]
    exact decode_encode rfl

/-- Settles O3: each word is the encoding of its command. -/
theorem oneWordOfEachOpcodeDecodes : Obligations.OneWordOfEachOpcodeDecodes :=
  ⟨decode_encode (i := .nop) rfl, decode_encode (i := .enc 4) rfl, decode_encode (i := .dec) rfl,
    decode_encode (i := .slice) rfl, decode_encode (i := .pack) rfl, decode_encode (i := .romf 5) rfl,
    decode_encode (i := .romi 6) rfl⟩

end Sys2Proof
end

section
/-! PROOFS. The host's lines: the words the assembler gives, and the group that `lgrp` loads. -/

namespace Sys2Proof.Machine

/-! ### The assembler -/

theorem assemble_enc (n : Nat) :
    assemble ['e', 'n', 'c'] [n] = if 1 ≤ n ∧ n ≤ 5 then some (.enc (BitVec.ofNat 3 n)) else none := rfl

theorem assemble_romf (n : Nat) :
    assemble ['r', 'o', 'm', 'f'] [n] = if h : n < 8 then some (.romf ⟨n, h⟩) else none := rfl

theorem assemble_romi (n : Nat) :
    assemble ['r', 'o', 'm', 'i'] [n] = if h : n < 8 then some (.romi ⟨n, h⟩) else none := rfl

/-- The assembler looks at a mnemonic's letters in lower case only. -/
theorem assemble_congr_toLower {m m' : List Char} (h : m.map Char.toLower = m'.map Char.toLower) (ops : List Nat) :
    assemble m ops = assemble m' ops := by
  simp only [assemble, h]

/-- Settles O5: each line is its command, whose encoding is the word; a value outside the range is refused. -/
theorem theAssemblerGivesTheListedWords : Obligations.TheAssemblerGivesTheListedWords := by
  refine ⟨rfl, rfl, rfl, rfl, fun n => ?_, fun n => ?_, fun n => ?_, fun m m' ops h => assemble_congr_toLower h ops,
    fun r i => rfl⟩
  · rw [assemble_enc]
    split
    · exact congrArg some (encode_enc n (by omega))
    · rfl
  · rw [assemble_romf]
    split
    · exact congrArg some (encode_romf _)
    · rfl
  · rw [assemble_romi]
    split
    · exact congrArg some (encode_romi _)
    · rfl

/-! ### Loading a group -/

/-- The symbol a data operand stands for where SIN keeps it (30_encoding.md R70; 10_state.md R35). -/
def DataOperand.symbol (r : Rom) : DataOperand → Symbol
  | .word w => w.extractLsb' 0 24
  | .entry i => r.alphabet[i]
  | .padSymbol => r.pad

theorem DataOperand.extractLsb'_value (r : Rom) (o : DataOperand) : (o.value r).extractLsb' 0 24 = o.symbol r := by
  have hsetWidth : ∀ x : Symbol, (x.setWidth 32 : Word).extractLsb' 0 24 = x := fun x => by
    rw [← BitVec.setWidth_eq_extractLsb' (by decide), BitVec.setWidth_setWidth_of_le _ (by decide), BitVec.setWidth_eq]
  cases o with
  | word w => rfl
  | entry i => exact hsetWidth _
  | padSymbol => exact hsetWidth _

theorem regAt_sinAddr (k : Lane) : regAt (sinAddr k) = .sin k := by revert k; decide

/-- The vector `v` with `x k` in each lane `k` of `ks`. -/
def setLanes {α : Type} (x : Lane → α) (v : Vector α 8) (ks : List Lane) : Vector α 8 :=
  ks.foldl (fun w (k : Lane) => w.set k (x k)) v

theorem getElem_setLanes {α : Type} (x : Lane → α) (v : Vector α 8) (ks : List Lane) (j : Lane) :
    (setLanes x v ks)[j] = if j ∈ ks then x j else v[j] := by
  induction ks generalizing v with
  | nil => rfl
  | cons k ks ih =>
    have hcons : setLanes x v (k :: ks) = setLanes x (v.set k (x k)) ks := rfl
    rw [hcons, ih]
    by_cases hj : j = k
    · simp [hj]
    · have hset : (v.set k (x k))[j] = v[j] := (getElem_set_eq_or v k j _).resolve_right (Ne.symm hj)
      simp only [List.mem_cons, hj, false_or, hset]

theorem setLanes_finRange {α : Type} (x : Lane → α) (v : Vector α 8) :
    setLanes x v (List.finRange 8) = Vector.ofFn x := by
  refine Vector.ext fun k hk => ?_
  rw [Vector.getElem_ofFn]
  exact (getElem_setLanes x v _ ⟨k, hk⟩).trans (if_pos (List.mem_finRange _))

/-- Writes of the words `w` to SIN in the lanes `ks`, run as steps. -/
theorem stepN_sin_writes (s : State) (w : Lane → Word) (ks : List Lane) (rest : List Event) :
    stepN ks.length { s with events := ks.map (fun k => .write (sinAddr k) (w k)) ++ rest } =
      .next { s with events := rest, sin := setLanes (fun k => (w k).extractLsb' 0 24) s.sin ks } := by
  induction ks generalizing s with
  | nil => rfl
  | cons k ks ih =>
    have hcmd : regAt (sinAddr k) ≠ .cmd := by rw [regAt_sinAddr]; nofun
    have hstep := step_write hcmd s (w k) (ks.map (fun k => .write (sinAddr k) (w k)) ++ rest)
    rw [regAt_sinAddr] at hstep
    exact (stepN_succ hstep).trans (ih _)

/-- `lgrp` is the writes of its operands' words to SIN in lane order (30_encoding.md R70). -/
theorem expand_lgrp (r : Rom) (o0 o1 o2 o3 o4 o5 o6 o7 : DataOperand) :
    HostLine.expand r (.lgrp o0 o1 o2 o3 o4 o5 o6 o7) =
      (List.finRange 8).map fun k => .write (sinAddr k) (#v[o0, o1, o2, o3, o4, o5, o6, o7][k].value r) := rfl

/-- Settles O18: `lgrp` is eight writes, one a lane, and SIN keeps the symbol of each word. -/
theorem lgrpLoadsTheGroup : Obligations.LgrpLoadsTheGroup := by
  intro s o0 o1 o2 o3 o4 o5 o6 o7 rest
  have hstep := stepN_sin_writes s (fun k => #v[o0, o1, o2, o3, o4, o5, o6, o7][k].value s.rom) (List.finRange 8) rest
  simp only [List.length_finRange, setLanes_finRange, DataOperand.extractLsb'_value] at hstep
  rw [expand_lgrp]
  exact hstep

end Sys2Proof.Machine
end

section
/-! PROOFS. The symbol ROM: when the inverse lookup answers Hit, Pad and Miss, and the commands ROMF and ROMI. -/

namespace Sys2Proof.Machine

/-! ### The two lookups -/

/-- The value whose number is an index looks up that entry. -/
theorem romFwd_ofNat (r : Rom) (i : Fin 32) : romFwd r (BitVec.ofNat 5 i.val) = r.alphabet[i] := by
  have hi : (BitVec.ofNat 5 i.val).toFin = i := Fin.ext (Nat.mod_eq_of_lt i.isLt)
  exact congrArg (fun j : Fin 32 => r.alphabet[j]) hi

/-- A symbol that is no entry is answered by comparing it with the padding symbol (40_symbol_rom.md R81). -/
theorem romInv_of_absent {r : Rom} {s : Symbol} (h : ∀ i : Fin 32, r.alphabet[i] ≠ s) :
    romInv r s = if s = r.pad then .pad else .miss := by
  have hspec := romInv_spec r s
  cases hr : romInv r s with
  | hit i =>
    rw [hr] at hspec
    exact absurd hspec (h i.toFin)
  | pad =>
    rw [hr] at hspec
    exact (if_pos hspec.1).symm
  | miss =>
    rw [hr] at hspec
    exact (if_neg hspec.1).symm

/-- A Hit is never of another entry, since the entries are distinct (00_scope.md R9). -/
theorem romInv_eq_hit_iff {r : Rom} (hr : r.Legal) (s : Symbol) (i : Value) :
    romInv r s = .hit i ↔ romFwd r i = s := by
  have hspec := romInv_spec r s
  constructor
  · intro h
    rw [h] at hspec
    exact hspec
  · intro h
    cases hl : romInv r s with
    | hit j =>
      rw [hl] at hspec
      rw [romFwd_injective hr (hspec.trans h.symm)]
    | pad | miss =>
      rw [hl] at hspec
      exact absurd h (hspec.2 i.toFin)

/-- No entry shadows the padding symbol, since it is outside the alphabet (00_scope.md R10). -/
theorem romInv_eq_pad_iff {r : Rom} (hr : r.Legal) (s : Symbol) : romInv r s = .pad ↔ s = r.pad := by
  constructor
  · intro h
    have hspec := romInv_spec r s
    rw [h] at hspec
    exact hspec.1
  · rintro rfl
    rw [romInv_of_absent hr.2, if_pos rfl]

theorem romInv_eq_miss_iff (r : Rom) (s : Symbol) :
    romInv r s = .miss ↔ (∀ i : Fin 32, r.alphabet[i] ≠ s) ∧ s ≠ r.pad := by
  constructor
  · intro h
    have hspec := romInv_spec r s
    rw [h] at hspec
    exact hspec.symm
  · rintro ⟨habsent, hpad⟩
    rw [romInv_of_absent habsent, if_neg hpad]

/-- Settles O26: when the inverse lookup answers each of the three. -/
theorem theInverseLookupIsExact : Obligations.TheInverseLookupIsExact :=
  fun r s hr => ⟨romInv_eq_hit_iff hr s, romInv_eq_pad_iff hr s, romInv_eq_miss_iff r s⟩

/-- Settles O25: a Hit names the index of the symbol, and the padding symbol is a Pad. -/
theorem theTwoLookupsAreInverse : Obligations.TheTwoLookupsAreInverse :=
  fun _ hr => ⟨fun i => (romInv_eq_hit_iff hr _ i).2 rfl, (romInv_eq_pad_iff hr _).2 rfl,
    fun s i => (romInv_eq_hit_iff hr s i).1⟩

/-! ### ROMF and ROMI -/

/-- A word of ROMF's or ROMI's opcode with a stray LEN or RSV is illegal (30_encoding.md R65; 44_control.md R171). -/
theorem perform_of_strayField {d : Word} (hop : opField d = 5 ∨ opField d = 6)
    (hstray : lenField d ≠ 0 ∨ rsvField d ≠ 0) (s : State) : perform d s = .next { s with code := 7 } := by
  have hlegal : legal d = (rsvField d == 0 && lenField d == 0) := by
    obtain h | h := hop <;> simp [legal, h]
  have hillegal : legal d = false := by
    rw [hlegal, Bool.and_eq_false_iff, beq_eq_false_iff_ne, beq_eq_false_iff_ne]
    exact hstray.symm
  exact perform_of_illegal (decode_of_not_legal hillegal) s

/-- Settles O23: the effect of ROMF, its word as an encoding, and the illegal words of its opcode. -/
theorem romfLooksUpItsLane : Obligations.RomfLooksUpItsLane := by
  refine fun s => ⟨fun k => ⟨?_, CommandEffect.romf.exec_eq⟩, fun d hop h => perform_of_strayField (.inl hop) h s⟩
  rw [← encode_romf]
  exact decode_encode rfl

/-- Settles O24: the effect of ROMI for each answer of the inverse lookup. -/
theorem romiClassifiesItsLane : Obligations.RomiClassifiesItsLane := by
  refine fun s hr => ⟨fun k => ⟨?_, fun i hi => ?_, fun hpad => ?_, fun habsent hpad => ?_⟩,
    fun d hop h => perform_of_strayField (.inr hop) h s⟩
  · rw [← encode_romi]
    exact decode_encode rfl
  · have hentry : romFwd s.rom (BitVec.ofNat 5 i.val) = s.sin[k] := (romFwd_ofNat s.rom i).trans hi.symm
    exact (CommandEffect.romiHit ((romInv_eq_hit_iff hr _ _).2 hentry)).exec_eq
  · exact (CommandEffect.romiPad ((romInv_eq_pad_iff hr _).2 hpad)).exec_eq
  · have hmiss : romInv s.rom s.sin[k] = .miss :=
      (romInv_eq_miss_iff s.rom _).2 ⟨fun i => (habsent i).symm, hpad⟩
    exact (CommandEffect.romiMiss hmiss).exec_eq

end Sys2Proof.Machine
end

section
/-! PROOFS. The bit slicer: the field each lane is of the eight values side by side, and the commands SLICE and PACK. -/

namespace Sys2Proof.Machine

/-- Lane `k` of the eight values side by side is the five bits from bit `39-5k` down (41_bit_slicer.md R101). -/
theorem extractLsb'_joinedLanes (v : Vector Value 8) (k : Lane) :
    (v[0] ++ v[1] ++ v[2] ++ v[3] ++ v[4] ++ v[5] ++ v[6] ++ v[7]).extractLsb' (35 - 5 * k.val) 5 = v[k] := by
  fin_cases k <;> simp (disch := decide) only [BitVec.extractLsb'_append_eq_of_le,
    BitVec.extractLsb'_append_eq_of_add_le] <;> exact BitVec.extractLsb'_eq_self

theorem bytesOfBlock_joinedBytes (b0 b1 b2 b3 b4 : Byte) :
    bytesOfBlock (b0 ++ b1 ++ b2 ++ b3 ++ b4) = #v[b0, b1, b2, b3, b4] :=
  bytesOfBlock_blockOfBytes #v[b0, b1, b2, b3, b4]

theorem blockOfBytes_injective {b c : Vector Byte 5} (h : blockOfBytes b = blockOfBytes c) : b = c := by
  rw [← bytesOfBlock_blockOfBytes b, h, bytesOfBlock_blockOfBytes]

theorem slice_getElem (b : Vector Byte 5) (k : Nat) (hk : k < 8) :
    (slice b)[k] = (blockOfBytes b).extractLsb' (35 - 5 * k) 5 := by
  have hlane := slice_bytesOfBlock (blockOfBytes b) ⟨k, hk⟩
  rw [bytesOfBlock_blockOfBytes] at hlane
  exact hlane

/-- Each lane that SLICE cuts from the packed block is the lane that was packed (41_bit_slicer.md R102). -/
theorem slice_pack (v : Vector Value 8) : slice (pack v) = v := by
  refine Vector.ext fun k hk => ?_
  rw [slice_getElem, blockOfBytes_pack]
  exact extractLsb'_joinedLanes v ⟨k, hk⟩

/-- A block is its eight fields of five bits side by side (41_bit_slicer.md R100). -/
theorem joinedFields_eq (w : Block) :
    w.extractLsb' 35 5 ++ w.extractLsb' 30 5 ++ w.extractLsb' 25 5 ++ w.extractLsb' 20 5 ++ w.extractLsb' 15 5 ++
      w.extractLsb' 10 5 ++ w.extractLsb' 5 5 ++ w.extractLsb' 0 5 = w := by
  simp only [BitVec.extractLsb'_append_extractLsb'_eq_extractLsb']
  exact BitVec.extractLsb'_eq_self

/-- Packing joins the fields that slicing cut from the block (41_bit_slicer.md R102). -/
theorem pack_slice (b : Vector Byte 5) : pack (slice b) = b := by
  apply blockOfBytes_injective
  rw [blockOfBytes_pack]
  simp only [slice_getElem]
  exact joinedFields_eq (blockOfBytes b)

/-- Settles O27: the block's bytes are the ones it is joined from, and the word is SLICE's encoding. -/
theorem sliceComputesTheFormulas : Obligations.SliceComputesTheFormulas := by
  refine ⟨decode_encode (i := .slice) rfl, fun s b0 b1 b2 b3 b4 hdin => ?_⟩
  rw [CommandEffect.slice.exec_eq, hdin, bytesOfBlock_joinedBytes]
  rfl

/-- Settles O28: the lanes SLICE writes are the fields of DIN. -/
theorem sliceCutsTheBlockFromTheTop : Obligations.SliceCutsTheBlockFromTheTop :=
  fun s => ⟨_, CommandEffect.slice.exec_eq, rfl, slice_bytesOfBlock s.din⟩

/-- Settles O29: the bytes PACK writes are the lanes side by side, and the word is PACK's encoding. -/
theorem packJoinsTheLanes : Obligations.PackJoinsTheLanes := by
  refine ⟨decode_encode (i := .pack) rfl, fun s => ?_⟩
  rw [CommandEffect.pack.exec_eq, blockOfBytes_pack]

/-- Settles O30: each direction is one of the two round trips above. -/
theorem sliceAndPackAreInverse : Obligations.SliceAndPackAreInverse := ⟨pack_slice, slice_pack⟩

end Sys2Proof.Machine
end

section
/-! PROOFS. The encoder on one block: the field and the padding in each lane of a group, and the command ENC. -/

namespace Sys2Proof.Machine

/-! ### The group of a block -/

theorem blockByte_shiftRight_shiftLeft (w : Block) (len : Nat) (j : Fin 5) :
    blockByte ((w >>> (40 - 8 * len)) <<< (40 - 8 * len)) j = if j.val < len then blockByte w j else 0 := by
  refine BitVec.eq_of_getLsbD_eq fun i hi => ?_
  simp only [blockByte, BitVec.getLsbD_extractLsb', BitVec.getLsbD_shiftLeft, BitVec.getLsbD_ushiftRight]
  by_cases hj : j.val < len
  · have hkept : 40 - 8 * len + (32 - 8 * j.val + i - (40 - 8 * len)) = 32 - 8 * j.val + i := by omega
    have hplace : 32 - 8 * j.val + i < 40 ∧ ¬ 32 - 8 * j.val + i < 40 - 8 * len := by omega
    simp [hj, hkept, hplace]
  · have hcleared : 32 - 8 * j.val + i < 40 - 8 * len := by omega
    simp [hj, hcleared]

/-- A block with the bytes at positions `len` and above taken as 0 (42_encoder.md R122). -/
theorem zeroExtend_bytesOfBlock (w : Block) (len : Nat) :
    zeroExtend (bytesOfBlock w) len = bytesOfBlock ((w >>> (40 - 8 * len)) <<< (40 - 8 * len)) := by
  refine Vector.ext fun j hj => ?_
  rw [zeroExtend_getElem, bytesOfBlock_getElem, bytesOfBlock_getElem, blockByte_shiftRight_shiftLeft]

/-- A lane holds the entry of its field where that begins within the block, and padding elsewhere
(42_encoder.md R120, R123). -/
theorem encodeBlock_bytesOfBlock_getElem (r : Rom) (w : Block) {len : Nat} (h1 : 1 ≤ len) (h5 : len ≤ 5) (k : Lane) :
    (encodeBlock r (bytesOfBlock w) len)[k] =
      if 5 * k.val < 8 * len then
        romFwd r (((w >>> (40 - 8 * len)) <<< (40 - 8 * len)).extractLsb' (35 - 5 * k.val) 5)
      else r.pad := by
  have hfield := slice_bytesOfBlock ((w >>> (40 - 8 * len)) <<< (40 - 8 * len)) k
  rw [← zeroExtend_bytesOfBlock] at hfield
  rw [← hfield]
  simp only [← lt_meaningfulCount_iff k.val h1 h5]
  exact encodeBlock_getElem r _ len k k.isLt

/-- No entry is the padding symbol (00_scope.md R10). -/
theorem romFwd_ne_pad {r : Rom} (hr : r.Legal) (i : Value) : romFwd r i ≠ r.pad := hr.2 i.toFin

theorem encodeBlock_getElem_eq_pad_iff {r : Rom} (hr : r.Legal) (b : Vector Byte 5) (len k : Nat) (hk : k < 8) :
    (encodeBlock r b len)[k] = r.pad ↔ meaningfulCount len ≤ k := by
  rw [encodeBlock_getElem]
  split
  case isTrue h => exact iff_of_false (romFwd_ne_pad hr _) (Nat.not_le.2 h)
  case isFalse h => exact iff_of_true rfl (Nat.not_lt.1 h)

theorem meaningfulCount_of_mem_table {len m : Nat} (h : (len, m) ∈ [(1, 2), (2, 4), (3, 5), (4, 7), (5, 8)]) :
    meaningfulCount len = m := by
  simp only [List.mem_cons, Prod.mk.injEq, List.not_mem_nil, or_false] at h
  obtain ⟨rfl, rfl⟩ | ⟨rfl, rfl⟩ | ⟨rfl, rfl⟩ | ⟨rfl, rfl⟩ | ⟨rfl, rfl⟩ := h <;> rfl

/-- Settles O34: the lanes below the meaningful count are lookups, which never give the padding symbol. -/
theorem paddingFillsExactlyTheTrailingLanes : Obligations.PaddingFillsExactlyTheTrailingLanes := by
  intro r b len m hr hrow k
  obtain rfl := meaningfulCount_of_mem_table hrow
  exact ⟨fun hk => ⟨_, (encodeBlock_getElem r b len k k.isLt).trans (if_pos hk)⟩,
    encodeBlock_getElem_eq_pad_iff hr b len k k.isLt⟩

/-! ### ENC -/

theorem lenInRange_eq_false_iff (len : BitVec 3) : lenInRange len = false ↔ len = 0 ∨ len = 6 ∨ len = 7 := by
  revert len; decide

/-- A word of ENC's opcode with LEN out of range, or a stray LANE or RSV, is illegal (30_encoding.md R65, R66;
44_control.md R171). -/
theorem perform_of_illegalEnc {d : Word} (hop : opField d = 1)
    (hstray : rsvField d ≠ 0 ∨ lenInRange (lenField d) = false ∨ laneField d ≠ 0) (s : State) :
    perform d s = .next { s with code := 7 } := by
  have hlegal : legal d = (rsvField d == 0 && (lenInRange (lenField d) && laneField d == 0)) := by simp [legal, hop]
  have hillegal : legal d = false := by
    rw [hlegal, Bool.and_eq_false_iff, Bool.and_eq_false_iff, beq_eq_false_iff_ne, beq_eq_false_iff_ne]
    exact hstray
  exact perform_of_illegal (decode_of_not_legal hillegal) s

/-- Settles O32: such a length is out of range, so the word is illegal. -/
theorem encWithAnIllegalLengthWritesCodeSevenOnly : Obligations.EncWithAnIllegalLengthWritesCodeSevenOnly :=
  fun s _ hop hlen => perform_of_illegalEnc hop (.inr (.inl ((lenInRange_eq_false_iff _).2 hlen))) s

/-- Settles O31: the effect of ENC with the lanes of its group, its word as an encoding, and the illegal words of its
opcode. -/
theorem encWritesTheGroupOfTheBlock : Obligations.EncWritesTheGroupOfTheBlock := by
  refine fun s => ⟨fun len h1 h5 => ?_, fun len hlen => (CommandEffect.encIllegal hlen).exec_eq, fun d hop h => ?_⟩
  · have hlen : lenInRange len = true := (lenInRange_iff len).2 ⟨h1, h5⟩
    refine ⟨?_, _, (CommandEffect.enc hlen).exec_eq, rfl, encodeBlock_bytesOfBlock_getElem s.rom s.din h1 h5⟩
    rw [← encode_enc _ len.isLt, BitVec.ofNat_toNat, BitVec.setWidth_eq]
    exact decode_encode hlen
  · refine perform_of_illegalEnc hop ?_ s
    rw [lenInRange_eq_false_iff]
    tauto

end Sys2Proof.Machine
end

section
/-! PROOFS. Encode of a buffer: its blocks in order, the length of its output, and where padding stands. -/

namespace Sys2Proof.Machine

/-! ### The blocks of a buffer -/

/-- A block of Encode's input: five bytes, and how many of them are the input's (42_encoder.md R126). -/
structure SizedBlock where
  bytes : Vector Byte 5
  len   : Nat

/-- The symbols of a block (42_encoder.md R123). -/
def SizedBlock.group (r : Rom) (b : SizedBlock) : List Symbol := (encodeBlock r b.bytes b.len).toList

/-- The host's lines for a block (42_encoder.md R128). -/
def SizedBlock.lines (b : SizedBlock) : List HostLine := encodeBlockLines b.bytes b.len

/-- The blocks whose five bytes are all the input's, in order (42_encoder.md R126). -/
def completeBlocks (x : List Byte) : List SizedBlock := (List.range (x.length / 5)).map fun i => ⟨blockAt x (5 * i), 5⟩

/-- The block of the bytes after the complete blocks, if there are any. -/
def tailBlocks (x : List Byte) : List SizedBlock :=
  if x.length % 5 = 0 then [] else [⟨blockAt x (5 * (x.length / 5)), x.length % 5⟩]

theorem encodeBuffer_eq_append (r : Rom) (x : List Byte) :
    encodeBuffer r x = (completeBlocks x).flatMap (·.group r) ++ (tailBlocks x).flatMap (·.group r) := by
  rw [encodeBuffer, completeBlocks, tailBlocks, List.flatMap_map]
  split <;> simp [SizedBlock.group]

theorem encodeLines_eq_append (x : List Byte) :
    encodeLines x = (completeBlocks x).flatMap (·.lines) ++ (tailBlocks x).flatMap (·.lines) := by
  rw [encodeLines, completeBlocks, tailBlocks, List.flatMap_map]
  split <;> simp [SizedBlock.lines]

theorem len_of_mem_completeBlocks {x : List Byte} {b : SizedBlock} (h : b ∈ completeBlocks x) : b.len = 5 := by
  obtain ⟨i, -, rfl⟩ := List.mem_map.1 h
  rfl

theorem length_completeBlocks (x : List Byte) : (completeBlocks x).length = x.length / 5 := by simp [completeBlocks]

theorem length_tailBlocks (x : List Byte) : (tailBlocks x).length = if x.length % 5 = 0 then 0 else 1 := by
  rw [tailBlocks]
  split <;> rfl

/-! ### The symbols of a buffer -/

theorem length_flatMap_group (r : Rom) (bs : List SizedBlock) : (bs.flatMap (·.group r)).length = 8 * bs.length := by
  simp [List.length_flatMap, SizedBlock.group, Nat.mul_comm]

theorem length_encodeBuffer (r : Rom) (x : List Byte) :
    (encodeBuffer r x).length = 8 * (x.length / 5) + if x.length % 5 = 0 then 0 else 8 := by
  rw [encodeBuffer_eq_append, List.length_append, length_flatMap_group, length_flatMap_group, length_completeBlocks,
    length_tailBlocks]
  split <;> rfl

/-- The group of a complete block has no padding (42_encoder.md R120). -/
theorem pad_notMem_group {r : Rom} (hr : r.Legal) {b : SizedBlock} (hb : b.len = 5) : r.pad ∉ b.group r := by
  intro h
  obtain ⟨k, hk, hpad⟩ := Vector.mem_iff_getElem.1 (Vector.mem_toList_iff.1 h)
  have hcount : meaningfulCount b.len ≤ k := (encodeBlock_getElem_eq_pad_iff hr b.bytes b.len k hk).1 hpad
  rw [hb] at hcount
  exact absurd hk (Nat.not_lt.2 hcount)

theorem pad_notMem_completeBlocks {r : Rom} (hr : r.Legal) (x : List Byte) :
    r.pad ∉ (completeBlocks x).flatMap (·.group r) := by
  intro h
  obtain ⟨b, hb, hpad⟩ := List.mem_flatMap.1 h
  exact pad_notMem_group hr (len_of_mem_completeBlocks hb) hpad

/-- Padding stands behind the groups of the complete blocks (42_encoder.md R129). -/
theorem le_of_encodeBuffer_getElem_eq_pad {r : Rom} (hr : r.Legal) {x : List Byte} {j : Nat}
    (h : j < (encodeBuffer r x).length) (hpad : (encodeBuffer r x)[j] = r.pad) : 8 * (x.length / 5) ≤ j := by
  by_contra hlt
  have hj : j < ((completeBlocks x).flatMap (·.group r)).length := by
    rw [length_flatMap_group, length_completeBlocks]
    omega
  simp only [encodeBuffer_eq_append, List.getElem_append_left hj] at hpad
  exact pad_notMem_completeBlocks hr x (hpad ▸ List.getElem_mem hj)

/-- Settles O35: eight symbols a block, and padding behind the complete blocks leaves only a tail's group for it. -/
theorem encodeGivesEightSymbolsABlock : Obligations.EncodeGivesEightSymbolsABlock := by
  intro r x
  have hlength := length_encodeBuffer r x
  refine ⟨?_, fun hr j h hpad => ?_⟩
  · rw [hlength]
    split <;> omega
  · have hle : 8 * (x.length / 5) ≤ j := le_of_encodeBuffer_getElem_eq_pad hr h hpad
    split at hlength <;> omega

/-- Settles O36: no block and no group, so both buffer functions end at once. -/
theorem emptyInputIsTheEmptyString : Obligations.EmptyInputIsTheEmptyString := fun _ => ⟨rfl, rfl⟩

end Sys2Proof.Machine
end

section
/-! PROOFS. The host's accesses for Encode, run as steps: one block, then the blocks of a buffer in order. -/

namespace Sys2Proof.Machine

/-! ### The accesses of one block -/

theorem extractLsb'_zero_setWidth_byte (b : Byte) : (b.setWidth 32 : Word).extractLsb' 0 8 = b := by
  rw [← BitVec.setWidth_eq_extractLsb' (by decide), BitVec.setWidth_setWidth_of_le _ (by decide), BitVec.setWidth_eq]

theorem regAt_dinHi : regAt 0x08 = .dinHi := by decide

theorem regAt_dinLo : regAt 0x0C = .dinLo := by decide

/-- `ldin` puts its five bytes into DIN (30_encoding.md R70; 20_memory.md R54). -/
theorem stepN_ldin (s : State) (b : Vector Byte 5) (rest : List Event) :
    stepN 2 { s with events := HostLine.expand s.rom (.ldin b[0] b[1] b[2] b[3] b[4]) ++ rest } =
      .next { s with events := rest, din := blockOfBytes b } := by
  refine (stepN_two_writes (by decide) (by decide) s _ _ rest).trans ?_
  rw [regAt_dinHi, regAt_dinLo, State.storeReg_dinHi_dinLo, extractLsb'_zero_setWidth_byte, shiftedBytes_eq_append,
    ← block_eq_byte_append_word, ← blockOfBytes]

/-- A command line performs its command, as one step (30_encoding.md R69). -/
theorem step_commandLine {i : Instr} (hi : i.wf = true) (s : State) (rest : List Event) :
    step { s with events := .write 0x00 (encode i) :: rest } = exec i { s with events := rest } := by
  have hcmd : regAt 0x00 = .cmd := by decide
  rw [step_cons rfl, State.handle, busWrite_cmd hcmd, perform_of_decode (decode_encode hi)]

theorem regAt_soutAddr (k : Lane) : regAt (soutAddr k) = .sout k := by revert k; decide

/-- A step that takes a read of a lane of SOUT off the queue. -/
theorem step_sout_read (s : State) (k : Lane) (rest : List Event) :
    step { s with events := .read (soutAddr k) :: rest } =
      .next { s with events := rest, reads := s.reads ++ [s.sout[k].setWidth 32] } := by
  rw [step_cons rfl, State.handle, State.recordRead, busRead_of_regAt (regAt_soutAddr k), State.regWord]

/-- Reads of SOUT in the lanes `ks`, run as steps. -/
theorem stepN_sout_reads (s : State) (ks : List Lane) (rest : List Event) :
    stepN ks.length { s with events := ks.map (fun k => .read (soutAddr k)) ++ rest } =
      .next { s with events := rest, reads := s.reads ++ ks.map fun k => s.sout[k].setWidth 32 } := by
  induction ks generalizing s with
  | nil => simp [stepN]
  | cons k ks ih =>
    have hrest := ih { s with reads := s.reads ++ [s.sout[k].setWidth 32] }
    refine (stepN_succ (step_sout_read s k _)).trans (hrest.trans ?_)
    rw [List.append_assoc, List.singleton_append, List.map_cons]

theorem map_finRange_getElem {α β : Type} (v : Vector α 8) (f : α → β) :
    (List.finRange 8).map (fun k => f v[k]) = v.toList.map f :=
  List.ext_getElem (by simp) fun k h _ => by simp

/-- The state in which the accesses of a block leave the registers and the answers (42_encoder.md R128). -/
def State.afterBlock (s : State) (b : SizedBlock) : State :=
  { s with
    din := blockOfBytes b.bytes
    sout := encodeBlock s.rom b.bytes b.len
    code := 0
    reads := s.reads ++ (b.group s.rom).map (BitVec.setWidth 32) }

theorem expandLines_lines (r : Rom) (b : SizedBlock) :
    expandLines r b.lines =
      HostLine.expand r (.ldin b.bytes[0] b.bytes[1] b.bytes[2] b.bytes[3] b.bytes[4]) ++
        .write 0x00 (encode (.enc (BitVec.ofNat 3 b.len))) :: (List.finRange 8).map fun k => .read (soutAddr k) := rfl

/-- `enc` puts the group of the block in DIN into SOUT (42_encoder.md R124). -/
theorem step_encLine (s : State) {len : Nat} (h1 : 1 ≤ len) (h5 : len ≤ 5) (rest : List Event) :
    step { s with events := .write 0x00 (encode (.enc (BitVec.ofNat 3 len))) :: rest } =
      .next { s with events := rest, sout := encodeBlock s.rom (bytesOfBlock s.din) len, code := 0 } := by
  have hlen : (BitVec.ofNat 3 len).toNat = len := by rw [BitVec.toNat_ofNat]; omega
  have hwf : lenInRange (BitVec.ofNat 3 len) = true := by rw [lenInRange_iff, hlen]; exact ⟨h1, h5⟩
  rw [step_commandLine (i := .enc _) hwf, (CommandEffect.enc hwf).exec_eq, hlen]

/-- The accesses of one block run to their end: the block into DIN, its group into SOUT, and the lanes' words to the
host. -/
theorem stepN_lines (s : State) {b : SizedBlock} (h1 : 1 ≤ b.len) (h5 : b.len ≤ 5) (rest : List Event) :
    stepN (expandLines s.rom b.lines).length { s with events := expandLines s.rom b.lines ++ rest } =
      .next { s.afterBlock b with events := rest } := by
  have henc := step_encLine { s with din := blockOfBytes b.bytes } h1 h5
    ((List.finRange 8).map (fun k => .read (soutAddr k)) ++ rest)
  have hreads := stepN_sout_reads
    { s with din := blockOfBytes b.bytes, sout := encodeBlock s.rom b.bytes b.len, code := 0 } (List.finRange 8) rest
  rw [bytesOfBlock_blockOfBytes] at henc
  rw [map_finRange_getElem] at hreads
  rw [expandLines_lines, List.length_append, List.append_assoc, List.cons_append, List.length_cons, List.length_map]
  exact stepN_add (stepN_ldin s b.bytes _) ((stepN_succ henc).trans hreads)

/-! ### The accesses of a buffer -/

theorem expandLines_append (r : Rom) (l m : List HostLine) :
    expandLines r (l ++ m) = expandLines r l ++ expandLines r m := List.flatMap_append

/-- The accesses of blocks in order run to their end, and the words read are the blocks' symbols. -/
theorem stepN_flatMap_lines (s : State) (bs : List SizedBlock) (hlen : ∀ b ∈ bs, 1 ≤ b.len ∧ b.len ≤ 5)
    (rest : List Event) :
    ∃ t, stepN (expandLines s.rom (bs.flatMap (·.lines))).length
        { s with events := expandLines s.rom (bs.flatMap (·.lines)) ++ rest } = .next t ∧ t.events = rest ∧
      t.reads = s.reads ++ (bs.flatMap (·.group s.rom)).map (BitVec.setWidth 32) ∧
      t.rom = s.rom ∧ t.val = s.val ∧ t.sin = s.sin ∧ t.dout = s.dout ∧ t.nbytes = s.nbytes ∧ t.sclass = s.sclass := by
  induction bs generalizing s with
  | nil => exact ⟨_, rfl, rfl, (List.append_nil _).symm, rfl, rfl, rfl, rfl, rfl, rfl⟩
  | cons b bs ih =>
    obtain ⟨⟨h1, h5⟩, hbs⟩ := List.forall_mem_cons.1 hlen
    obtain ⟨t, hrun, hevents, hreads, hframe⟩ := ih (s.afterBlock b) hbs
    rw [List.flatMap_cons, expandLines_append, List.length_append, List.append_assoc]
    refine ⟨t, stepN_add (stepN_lines s h1 h5 _) hrun, hevents, ?_, hframe⟩
    rw [hreads, List.flatMap_cons, List.map_append, ← List.append_assoc]
    rfl

theorem len_of_mem_tailBlocks {x : List Byte} {b : SizedBlock} (h : b ∈ tailBlocks x) : 1 ≤ b.len ∧ b.len ≤ 5 := by
  rw [tailBlocks] at h
  split at h
  · exact absurd h List.not_mem_nil
  · obtain rfl := List.mem_singleton.1 h
    dsimp only
    omega

/-- Settles O48: Encode's lines and its output are those of the buffer's blocks in order. -/
theorem theHostSequenceComputesEncode : Obligations.TheHostSequenceComputesEncode := by
  intro s x rest accesses hevents
  have hlen : ∀ b ∈ completeBlocks x ++ tailBlocks x, 1 ≤ b.len ∧ b.len ≤ 5 := by
    intro b hb
    obtain hb | hb := List.mem_append.1 hb
    · rw [len_of_mem_completeBlocks hb]
      decide
    · exact len_of_mem_tailBlocks hb
  have hrun := stepN_flatMap_lines s _ hlen rest
  rw [List.flatMap_append, ← encodeLines_eq_append, List.flatMap_append, ← encodeBuffer_eq_append, ← hevents] at hrun
  exact hrun

end Sys2Proof.Machine
end

section
/-! PROOFS. The scan of a group: Hits and then Pads pass it, the first lane that raises ends it, and the padding count
decides what passed. -/

namespace Sys2Proof.Machine

/-! ### The scan -/

theorem scanGroup_miss {r : Rom} {s : Symbol} (h : romInv r s = .miss) (rest : List Symbol) (p : Bool) :
    scanGroup r (s :: rest) p = .error .invalidSymbol := by simp only [scanGroup, h]

theorem scanGroup_pad {r : Rom} {s : Symbol} (h : romInv r s = .pad) (rest : List Symbol) (p : Bool) :
    scanGroup r (s :: rest) p = scanGroup r rest true := by simp only [scanGroup, h]

theorem scanGroup_hit_of_padStarted {r : Rom} {s : Symbol} {i : Value} (h : romInv r s = .hit i) (rest : List Symbol) :
    scanGroup r (s :: rest) true = .error .misplacedPadding := by simp only [scanGroup, h, if_true]

theorem scanGroup_hit {r : Rom} {s : Symbol} {i : Value} (h : romInv r s = .hit i) (rest : List Symbol) :
    scanGroup r (s :: rest) false = (scanGroup r rest false).map (i :: ·) := by
  simp only [scanGroup, h]
  cases scanGroup r rest false <;> rfl

/-- The symbols of `l` are Hits of the values `v` and then `n` Pads: what a scan that raises nothing has seen
(43_decoder.md R144). -/
def HitsThenPads (r : Rom) (l : List Symbol) (v : List Value) (n : Nat) : Prop :=
  l.map (romInv r) = v.map .hit ++ List.replicate n .pad

theorem HitsThenPads.length_eq {r : Rom} {l : List Symbol} {v : List Value} {n : Nat} (h : HitsThenPads r l v n) :
    l.length = v.length + n := by simpa using congrArg List.length h

theorem scanGroup_pads_append {r : Rom} {l : List Symbol} {n : Nat} (h : l.map (romInv r) = List.replicate n .pad)
    (rest : List Symbol) (p : Bool) : scanGroup r (l ++ rest) p = scanGroup r rest (p || n != 0) := by
  induction l generalizing n p with
  | nil =>
    obtain rfl : n = 0 := by simpa using (congrArg List.length h).symm
    simp
  | cons s l ih =>
    cases n with
    | zero => simp at h
    | succ n =>
      rw [List.map_cons, List.replicate_succ, List.cons.injEq] at h
      rw [List.cons_append, scanGroup_pad h.1, ih h.2]
      simp

/-- A scan goes through Hits and then Pads, keeps the values of the Hits and knows whether padding has started. -/
theorem HitsThenPads.scanGroup_append {r : Rom} {l : List Symbol} {v : List Value} {n : Nat} (h : HitsThenPads r l v n)
    (rest : List Symbol) : scanGroup r (l ++ rest) false = (scanGroup r rest (n != 0)).map (v ++ ·) := by
  induction v generalizing l with
  | nil =>
    rw [scanGroup_pads_append h, Bool.false_or]
    cases scanGroup r rest (n != 0) <;> rfl
  | cons i v ih =>
    cases l with
    | nil => simp [HitsThenPads] at h
    | cons s l =>
      rw [HitsThenPads, List.map_cons, List.map_cons, List.cons_append, List.cons.injEq] at h
      rw [List.cons_append, scanGroup_hit h.1, ih h.2]
      cases scanGroup r rest (n != 0) <;> rfl

theorem HitsThenPads.scanGroup_eq {r : Rom} {l : List Symbol} {v : List Value} {n : Nat} (h : HitsThenPads r l v n) :
    scanGroup r l false = .ok v := by
  simpa [scanGroup, Except.map] using h.scanGroup_append []

theorem HitsThenPads.scanGroup_miss {r : Rom} {l : List Symbol} {v : List Value} {n : Nat} (h : HitsThenPads r l v n)
    {s : Symbol} (hs : romInv r s = .miss) (rest : List Symbol) :
    scanGroup r (l ++ s :: rest) false = .error .invalidSymbol := by
  rw [h.scanGroup_append, Machine.scanGroup_miss hs]
  rfl

theorem HitsThenPads.scanGroup_misplaced {r : Rom} {l : List Symbol} {v : List Value} {n : Nat}
    (h : HitsThenPads r l v n) (hn : n ≠ 0) {s : Symbol} {i : Value} (hs : romInv r s = .hit i) (rest : List Symbol) :
    scanGroup r (l ++ s :: rest) false = .error .misplacedPadding := by
  rw [h.scanGroup_append, bne_iff_ne.2 hn, scanGroup_hit_of_padStarted hs]
  rfl

/-- A Pad among Hits and then Pads is one of those. -/
theorem HitsThenPads.ne_zero_of_pad {r : Rom} {l : List Symbol} {v : List Value} {n : Nat} (h : HitsThenPads r l v n)
    {s : Symbol} (hs : s ∈ l) (hpad : romInv r s = .pad) : n ≠ 0 := by
  have hmem : Lookup.pad ∈ v.map Lookup.hit ++ List.replicate n .pad := h ▸ List.mem_map.2 ⟨s, hs, hpad⟩
  rintro rfl
  simp at hmem

/-! ### The lanes that raise nothing -/

/-- No symbol is a Miss, and none is a Hit with an earlier Pad: then they are Hits and then Pads
(43_decoder.md R144). -/
theorem exists_hitsThenPads_of_pairwise {r : Rom} {l : List Symbol} (hmiss : ∀ s ∈ l, romInv r s ≠ .miss)
    (horder : l.Pairwise fun s t => romInv r s = .pad → ∀ i, romInv r t ≠ .hit i) :
    ∃ v n, HitsThenPads r l v n := by
  induction l with
  | nil => exact ⟨[], 0, rfl⟩
  | cons s l ih =>
    obtain ⟨hs, hl⟩ := List.forall_mem_cons.1 hmiss
    obtain ⟨hfirst, horder⟩ := List.pairwise_cons.1 horder
    cases hc : romInv r s with
    | miss => exact absurd hc hs
    | hit i =>
      obtain ⟨v, n, h⟩ := ih hl horder
      exact ⟨i :: v, n, by rw [HitsThenPads, List.map_cons, hc, h]; rfl⟩
    | pad =>
      have hpads : l.map (romInv r) = List.replicate l.length .pad := by
        refine List.map_eq_replicate_iff.2 fun t ht => ?_
        cases htc : romInv r t with
        | pad => rfl
        | hit i => exact absurd htc (hfirst t ht hc i)
        | miss => exact absurd htc (hl t ht)
      exact ⟨[], l.length + 1, by rw [HitsThenPads, List.map_cons, hc, hpads]; rfl⟩

/-- No lane of `g` below `n` raises: none is a Miss, and none is a Hit with an earlier Pad (43_decoder.md R141,
R142). -/
def NoLaneRaises (r : Rom) (g : Vector Symbol 8) (n : Nat) : Prop :=
  ∀ j : Lane, j.val < n →
    romInv r g[j] ≠ .miss ∧ ∀ (i : Value) (p : Lane), romInv r g[j] = .hit i → p < j → romInv r g[p] ≠ .pad

theorem NoLaneRaises.exists_hitsThenPads {r : Rom} {g : Vector Symbol 8} {n : Nat} (h : NoLaneRaises r g n) :
    ∃ v m, HitsThenPads r (g.toList.take n) v m := by
  refine exists_hitsThenPads_of_pairwise (fun s hs => ?_)
    (List.pairwise_iff_getElem.2 fun p j hp hj hpj hpad i hi => ?_)
  · obtain ⟨j, hj, rfl⟩ := List.mem_iff_getElem.1 hs
    rw [List.length_take, Vector.length_toList, lt_min_iff] at hj
    rw [List.getElem_take, Vector.getElem_toList]
    exact (h ⟨j, hj.2⟩ hj.1).1
  · rw [List.length_take, Vector.length_toList, lt_min_iff] at hp hj
    rw [List.getElem_take, Vector.getElem_toList] at hpad hi
    exact (h ⟨j, hj.2⟩ hj.1).2 i ⟨p, hp.2⟩ hi hpj hpad

/-! ### DEC on a lane that raises -/

/-- A group is the lanes below `k`, lane `k` and the lanes above it. -/
theorem toList_eq_take_append_cons {α : Type} (g : Vector α 8) (k : Lane) :
    g.toList = g.toList.take k ++ g[k] :: g.toList.drop (k + 1) := by
  have hk : k.val < g.toList.length := by simp
  conv_lhs => rw [← List.take_append_drop k g.toList, List.drop_eq_getElem_cons hk, Vector.getElem_toList]
  rfl

theorem mem_take_toList {α : Type} (g : Vector α 8) {p k : Lane} (h : p < k) : g[p] ∈ g.toList.take k := by
  refine List.mem_take_iff_getElem.2 ⟨p, by simpa using h, ?_⟩
  rw [Vector.getElem_toList]
  rfl

theorem exec_dec_of_scan_error {s : State} {e : ErrorKind} (h : scanGroup s.rom s.sin.toList false = .error e) :
    exec .dec s = .next (s.reportDecodeError e) :=
  (CommandEffect.decError (by rw [decodeGroup, h])).exec_eq

/-- Settles O37: the lanes below are Hits and then Pads, and the scan ends at the lane that raises. -/
theorem theFirstLaneThatRaisesDecidesTheError : Obligations.TheFirstLaneThatRaisesDecidesTheError := by
  intro s k cls hclean
  obtain ⟨v, n, hbelow⟩ := NoLaneRaises.exists_hitsThenPads (r := s.rom) (g := s.sin) hclean
  refine ⟨fun hmiss => exec_dec_of_scan_error (e := .invalidSymbol) ?_,
    fun i p hhit hpk hpad => exec_dec_of_scan_error (e := .misplacedPadding) ?_⟩
  · rw [toList_eq_take_append_cons s.sin k]
    exact hbelow.scanGroup_miss hmiss _
  · rw [toList_eq_take_append_cons s.sin k]
    exact hbelow.scanGroup_misplaced (hbelow.ne_zero_of_pad (mem_take_toList s.sin hpk) hpad) hhit _

/-! ### The padding count -/

theorem HitsThenPads.decodeGroup_eq {r : Rom} {g : Vector Symbol 8} {v : List Value} {n : Nat}
    (h : HitsThenPads r g.toList v n) :
    decodeGroup r g =
      if legalPadding n then .ok ((pack (padValues v)).toList.take (byteCount v.length))
      else .error .invalidPaddingCount := by
  have hlength := h.length_eq
  rw [Vector.length_toList] at hlength
  have hn : 8 - v.length = n := by omega
  simp only [decodeGroup, h.scanGroup_eq, hn]

theorem legalPadding_of_mem_illegal : ∀ n ∈ [2, 5, 7, 8], legalPadding n = false := by decide

theorem HitsThenPads.lane_eq {r : Rom} {g : Vector Symbol 8} {v : List Value} {n : Nat}
    (h : HitsThenPads r g.toList v n) (k : Lane) :
    (v.map Lookup.hit ++ List.replicate n .pad)[k.val]? = some (romInv r g[k]) := by
  rw [← h]
  simp

/-- Settles O38: the group is Hits and then Pads, and their number is what `decode_group` looks at. -/
theorem onlyFivePaddingCountsDecode : Obligations.OnlyFivePaddingCountsDecode := by
  intro s cls hclean
  obtain ⟨v, n, h⟩ := NoLaneRaises.exists_hitsThenPads (r := s.rom) (g := s.sin) (n := 8) fun j _ => hclean j
  rw [List.take_of_length_le (by simp)] at h
  have hlength := h.length_eq
  rw [Vector.length_toList] at hlength
  have hn : 8 - v.length = n := by omega
  refine ⟨v.length, by omega, fun k hk => ⟨v[k.val], ?_⟩, fun k hk => ?_, fun hcount => ?_, fun hcount => ?_⟩
  · have hlane := h.lane_eq k
    rw [List.getElem?_append_left (by simpa using hk), List.getElem?_map, List.getElem?_eq_getElem hk] at hlane
    exact (Option.some.inj hlane).symm
  · have hlane := h.lane_eq k
    rw [List.getElem?_append_right (by simpa using hk), List.getElem?_replicate_of_lt (by simp; omega)] at hlane
    exact (Option.some.inj hlane).symm
  · refine (CommandEffect.decError (e := .invalidPaddingCount) ?_).exec_eq
    rw [h.decodeGroup_eq, legalPadding_of_mem_illegal n (hn ▸ hcount)]
    rfl
  · have hlegal : legalPadding n = true := List.contains_iff_mem.2 (hn ▸ hcount)
    have hdec := h.decodeGroup_eq
    rw [hlegal] at hdec
    exact ⟨_, (CommandEffect.decOk hdec).exec_eq, rfl⟩

/-- Settles O40: a group decodes to 1 to 5 bytes or to one of the decoder's three errors, and DEC reports it. -/
theorem decLeavesNoPartialOutput : Obligations.DecLeavesNoPartialOutput := by
  refine ⟨decode_encode (i := .dec) rfl, fun s => ?_⟩
  obtain ⟨bs, hok, h1, h5⟩ | ⟨e, herr, hkind⟩ := decodeGroup_cases s.rom s.sin
  · have hcount : (BitVec.ofNat 3 bs.length).toNat = bs.length := by rw [BitVec.toNat_ofNat]; omega
    exact ⟨_, (CommandEffect.decOk hok).exec_eq, rfl, .inl ⟨rfl, h1.trans_eq hcount.symm, hcount.trans_le h5⟩⟩
  · refine ⟨_, (CommandEffect.decError herr).exec_eq, rfl, .inr ⟨?_, rfl, rfl⟩⟩
    obtain rfl | rfl | rfl := hkind <;> simp [ErrorKind.code]

end Sys2Proof.Machine
end

section
/-! PROOFS. Reconstruction: the bytes that a group of Hits and then Pads decodes to, and the round trip of one block. -/

namespace Sys2Proof.Machine

/-! ### The bits that enter the first bytes -/

/-- Bit `i` of lane `k` in the packed block (41_bit_slicer.md R101). -/
theorem getLsbD_blockOfBytes_pack (v : Vector Value 8) (k : Lane) {i : Nat} (hi : i < 5) :
    (blockOfBytes (pack v)).getLsbD (35 - 5 * k.val + i) = v[k].getLsbD i := by
  rw [blockOfBytes_pack, ← extractLsb'_joinedLanes v k, BitVec.getLsbD_extractLsb']
  simp [hi]

/-- The first `nb` packed bytes are those bits of the first `m` lanes that are not among the last lane's `drop` low ones
(43_decoder.md R147, R148). -/
theorem pack_getElem_congr {v w : Vector Value 8} {m nb drop : Nat} (hbits : 8 * nb + drop ≤ 5 * m)
    (hlow : ∀ k : Lane, k.val + 1 < m → v[k] = w[k])
    (hlast : ∀ k : Lane, k.val + 1 = m → v[k] >>> drop = w[k] >>> drop) (j : Fin 5) (hj : j.val < nb) :
    (pack v)[j] = (pack w)[j] := by
  rw [← blockByte_blockOfBytes, ← blockByte_blockOfBytes]
  refine BitVec.eq_of_getLsbD_eq fun i hi => ?_
  obtain ⟨k, l, hl, hkl⟩ : ∃ (k : Lane) (l : Nat), l < 5 ∧ 32 - 8 * j.val + i = 35 - 5 * k.val + l :=
    ⟨⟨(8 * j.val + 7 - i) / 5, by omega⟩, 4 - (8 * j.val + 7 - i) % 5, by omega, by dsimp only; omega⟩
  simp only [blockByte, BitVec.getLsbD_extractLsb', hkl, getLsbD_blockOfBytes_pack _ k hl]
  obtain hk | hk : k.val + 1 < m ∨ k.val + 1 = m ∧ drop ≤ l := by omega
  · rw [hlow k hk]
  · have hshift := congrArg (fun x : Value => x.getLsbD (l - drop)) (hlast k hk.1)
    simp only [BitVec.getLsbD_ushiftRight, Nat.add_sub_cancel' hk.2] at hshift
    rw [hshift]

theorem take_toList_congr {α : Type} {n : Nat} {a b : Vector α n} {len : Nat}
    (h : ∀ j : Fin n, j.val < len → a[j] = b[j]) : a.toList.take len = b.toList.take len := by
  refine List.ext_getElem (by simp) fun j hj _ => ?_
  rw [List.length_take, Vector.length_toList, lt_min_iff] at hj
  simp only [List.getElem_take, Vector.getElem_toList]
  exact h ⟨j, hj.2⟩ hj.1

theorem take_pack_congr {v w : Vector Value 8} {m nb drop : Nat} (hbits : 8 * nb + drop ≤ 5 * m)
    (hlow : ∀ k : Lane, k.val + 1 < m → v[k] = w[k])
    (hlast : ∀ k : Lane, k.val + 1 = m → v[k] >>> drop = w[k] >>> drop) :
    (pack v).toList.take nb = (pack w).toList.take nb :=
  take_toList_congr (pack_getElem_congr hbits hlow hlast)

theorem padValues_getElem_of_lt {v : Vector Value 8} {m : Nat} (k : Lane) (hk : k.val < m) :
    (padValues (v.toList.take m))[k] = v[k] := by
  simp [padValues, List.getD_eq_getElem?_getD, List.getElem?_take, hk]

/-! ### Groups of Hits and then Pads -/

/-- The rows `m`, `nb` of the inverse table (43_decoder.md R145). -/
def inverseTable : List (Nat × Nat) := [(8, 5), (7, 4), (5, 3), (4, 2), (2, 1)]

theorem inverseTable_row : ∀ p ∈ inverseTable,
    p.1 ≤ 8 ∧ legalPadding (8 - p.1) = true ∧ byteCount p.1 = p.2 ∧ 8 * p.2 ≤ 5 * p.1 := by decide

theorem hitsThenPads_of_lanes {r : Rom} {g : Vector Symbol 8} {v : Vector Value 8} {m : Nat} (hm : m ≤ 8)
    (hhit : ∀ k : Lane, k.val < m → romInv r g[k] = .hit v[k]) (hpad : ∀ k : Lane, m ≤ k.val → romInv r g[k] = .pad) :
    HitsThenPads r g.toList (v.toList.take m) (8 - m) := by
  refine List.ext_getElem (by simp [hm]) fun k hk _ => ?_
  have hk8 : k < 8 := by simpa using hk
  rw [List.getElem_map, Vector.getElem_toList, List.getElem_append]
  split
  case isTrue h =>
    rw [List.length_map, List.length_take, lt_min_iff] at h
    rw [List.getElem_map, List.getElem_take, Vector.getElem_toList]
    exact hhit ⟨k, hk8⟩ h.1
  case isFalse h =>
    rw [List.getElem_replicate]
    rw [List.length_map, List.length_take, Vector.length_toList, min_eq_left hm] at h
    exact hpad ⟨k, hk8⟩ (Nat.not_lt.1 h)

/-- A group of `m` Hits of `v` and then Pads decodes to the first `nb` packed bytes: the lanes of `v` from `m` on do not
enter (43_decoder.md R147). -/
theorem decodeGroup_of_lanes {r : Rom} {g : Vector Symbol 8} {v : Vector Value 8} {m nb : Nat}
    (hrow : (m, nb) ∈ inverseTable) (hhit : ∀ k : Lane, k.val < m → romInv r g[k] = .hit v[k])
    (hpad : ∀ k : Lane, m ≤ k.val → romInv r g[k] = .pad) : decodeGroup r g = .ok ((pack v).toList.take nb) := by
  obtain ⟨hm, hlegal, hcount, hbits⟩ := inverseTable_row _ hrow
  have hlength : (v.toList.take m).length = m := by simp [hm]
  have hbytes : (pack (padValues (v.toList.take m))).toList.take nb = (pack v).toList.take nb :=
    take_pack_congr (drop := 0) hbits (fun k hk => padValues_getElem_of_lt k (by omega))
      fun k hk => by rw [padValues_getElem_of_lt k (by omega)]
  rw [(hitsThenPads_of_lanes hm hhit hpad).decodeGroup_eq, hlegal, hlength, hcount, hbytes]
  rfl

/-- The group of the first `m` values, padded (42_encoder.md R123). -/
def paddedGroup (r : Rom) (m : Nat) (v : Vector Value 8) : Vector Symbol 8 :=
  Vector.ofFn fun k => if k.val < m then romFwd r v[k] else r.pad

theorem encodeBlock_eq_paddedGroup (r : Rom) (b : Vector Byte 5) (len : Nat) :
    encodeBlock r b len = paddedGroup r (meaningfulCount len) (slice (zeroExtend b len)) := rfl

theorem decodeGroup_paddedGroup {r : Rom} (hr : r.Legal) (v : Vector Value 8) {m nb : Nat}
    (hrow : (m, nb) ∈ inverseTable) : decodeGroup r (paddedGroup r m v) = .ok ((pack v).toList.take nb) := by
  have hlane : ∀ k : Lane, (paddedGroup r m v)[k] = if k.val < m then romFwd r v[k] else r.pad := by
    simp [paddedGroup]
  refine decodeGroup_of_lanes hrow (fun k hk => ?_) fun k hk => ?_
  · rw [hlane, if_pos hk]
    exact (romInv_eq_hit_iff hr _ _).2 rfl
  · rw [hlane, if_neg (Nat.not_lt.2 hk)]
    exact (romInv_eq_pad_iff hr _).2 rfl

/-! ### DOUT -/

/-- The first `len` bytes of a block with 0 beyond them are the block's high `8 len` bits (43_decoder.md R154). -/
theorem blockOfList_take (b : Vector Byte 5) (len : Nat) :
    blockOfList (b.toList.take len) = (blockOfBytes b >>> (40 - 8 * len)) <<< (40 - 8 * len) := by
  have hextend : (Vector.ofFn fun j : Fin 5 => (b.toList.take len).getD j.val 0) = zeroExtend b len := by
    refine Vector.ext fun j hj => ?_
    rw [zeroExtend_getElem, Vector.getElem_ofFn, List.getD_eq_getElem?_getD, List.getElem?_take]
    split <;> simp [hj]
  have hzero := zeroExtend_bytesOfBlock (blockOfBytes b) len
  rw [bytesOfBlock_blockOfBytes] at hzero
  rw [blockOfList, hextend, hzero, blockOfBytes_bytesOfBlock]

/-- Settles O39: the group decodes to the first packed bytes, which are the joined values' high bits. -/
theorem decRebuildsTheBytesOfTheMeaningfulValues : Obligations.DecRebuildsTheBytesOfTheMeaningfulValues := by
  intro s v m nb hrow hhit hpad all
  obtain ⟨hm, -, -, hbits⟩ := inverseTable_row _ hrow
  have hlength : ((pack v).toList.take nb).length = nb := by
    rw [List.length_take, Vector.length_toList]
    omega
  rw [(CommandEffect.decOk (decodeGroup_of_lanes hrow hhit hpad)).exec_eq, blockOfList_take, blockOfBytes_pack, hlength]

/-- Settles O41: both groups decode, and the bits in which the values differ enter none of the kept bytes. -/
theorem unusedLowBitsAreDiscarded : Obligations.UnusedLowBitsAreDiscarded := by
  intro r v w m drop hr hdrop hlow hlast group
  obtain ⟨nb, hrow, hbits⟩ : ∃ nb, (m, nb) ∈ inverseTable ∧ 8 * nb + drop ≤ 5 * m := by
    simp only [List.mem_cons, Prod.mk.injEq, List.not_mem_nil, or_false] at hdrop
    obtain ⟨rfl, rfl⟩ | ⟨rfl, rfl⟩ | ⟨rfl, rfl⟩ | ⟨rfl, rfl⟩ := hdrop
    exacts [⟨1, by decide⟩, ⟨2, by decide⟩, ⟨3, by decide⟩, ⟨4, by decide⟩]
  refine ⟨_, decodeGroup_paddedGroup hr v hrow, ?_⟩
  rw [take_pack_congr hbits hlow hlast]
  exact decodeGroup_paddedGroup hr w hrow

/-! ### The round trip of a block -/

theorem mem_inverseTable_meaningfulCount {len : Nat} (h1 : 1 ≤ len) (h5 : len ≤ 5) :
    (meaningfulCount len, len) ∈ inverseTable := by
  interval_cases len <;> decide

/-- Settles O42: the group decodes to the first packed bytes, and packing undoes the slicing of the extended block. -/
theorem aGroupDecodesToItsBlock : Obligations.AGroupDecodesToItsBlock := by
  intro r b len hr h1 h5
  rw [encodeBlock_eq_paddedGroup, decodeGroup_paddedGroup hr _ (mem_inverseTable_meaningfulCount h1 h5), pack_slice]
  exact congrArg _ (take_toList_congr fun j hj => (zeroExtend_getElem b len j j.isLt).trans (if_pos hj))

/-- Settles O43: ENC leaves the group of DIN in SOUT, and DEC of it gives the block's bytes. -/
theorem encThenDecGivesTheBlockBack : Obligations.EncThenDecGivesTheBlockBack := by
  intro s len hr h1 h5
  have hlen : lenInRange len = true := (lenInRange_iff len).2 ⟨h1, h5⟩
  have hlength : ((bytesOfBlock s.din).toList.take len.toNat).length = len.toNat := by simpa using h5
  refine ⟨_, _, (CommandEffect.enc hlen).exec_eq,
    (CommandEffect.decOk (aGroupDecodesToItsBlock s.rom (bytesOfBlock s.din) len.toNat hr h1 h5)).exec_eq, ?_, ?_, rfl⟩
  · dsimp only
    rw [blockOfList_take, blockOfBytes_bytesOfBlock]
  · dsimp only
    rw [hlength, BitVec.ofNat_toNat, BitVec.setWidth_eq]

end Sys2Proof.Machine
end

section
/-! PROOFS. Decode of a buffer: the length check, group after group, and the round trip of a buffer. -/

namespace Sys2Proof.Machine

/-! ### The length check -/

theorem decodeBuffer_of_whole (r : Rom) {t : List Symbol} (h : t.length % 8 = 0) :
    decodeBuffer r t = decodeGroups r t (t.length / 8) := by
  rw [decodeBuffer, if_neg (not_not.2 h)]

/-- A group is never too short (43_decoder.md R154). -/
theorem decodeGroup_ne_malformedLength (r : Rom) (g : Vector Symbol 8) : decodeGroup r g ≠ .error .malformedLength := by
  obtain ⟨bs, hok, -⟩ | ⟨e, herr, hkind⟩ := decodeGroup_cases r g
  · simp [hok]
  · obtain rfl | rfl | rfl := hkind <;> simp [herr]

/-- The answer of some groups followed by that of the groups behind them: the first error or all the bytes
(43_decoder.md R151). -/
def thenBytes (first rest : Except ErrorKind (List Byte)) : Except ErrorKind (List Byte) :=
  match first with
  | .error e => .error e
  | .ok bs =>
    match rest with
    | .error e => .error e
    | .ok cs => .ok (bs ++ cs)

theorem decodeGroups_succ (r : Rom) (t : List Symbol) (n : Nat) :
    decodeGroups r t (n + 1) = thenBytes (decodeGroups r t n) (decodeGroup r (groupAt t (8 * n))) := rfl

theorem thenBytes_ne_error {a b : Except ErrorKind (List Byte)} {e : ErrorKind} (ha : a ≠ .error e)
    (hb : b ≠ .error e) : thenBytes a b ≠ .error e := by
  cases a with
  | error e' => exact ha
  | ok bs =>
    cases b with
    | error e' => exact hb
    | ok cs => nofun

theorem decodeGroups_ne_malformedLength (r : Rom) (t : List Symbol) (n : Nat) :
    decodeGroups r t n ≠ .error .malformedLength := by
  induction n with
  | zero => nofun
  | succ n ih => exact thenBytes_ne_error ih (decodeGroup_ne_malformedLength r _)

/-- Settles O45: a string of whole groups is left to the groups, none of which gives MalformedLength. -/
theorem theLengthIsCheckedBeforeAnyGroup : Obligations.TheLengthIsCheckedBeforeAnyGroup := by
  intro r t
  by_cases h : t.length % 8 = 0
  · rw [decodeBuffer_of_whole r h]
    exact iff_of_false (decodeGroups_ne_malformedLength r t _) (not_not.2 h)
  · exact iff_of_true (if_pos h) h

/-! ### Group after group -/

theorem groupAt_append_zero (g : Vector Symbol 8) (t : List Symbol) : groupAt (g.toList ++ t) 0 = g := by
  refine Vector.ext fun k hk => ?_
  rw [groupAt, Vector.getElem_ofFn, Nat.zero_add, List.getD_append _ _ _ _ (by simpa using hk)]
  simp [hk]

theorem groupAt_append_add (g : Vector Symbol 8) (t : List Symbol) (j : Nat) :
    groupAt (g.toList ++ t) (8 + j) = groupAt t j := by
  refine Vector.ext fun k hk => ?_
  rw [groupAt, groupAt, Vector.getElem_ofFn, Vector.getElem_ofFn, List.getD_append_right _ _ _ _ (by simp; omega),
    Vector.length_toList, Nat.add_assoc, Nat.add_sub_cancel_left]

theorem thenBytes_assoc (a b c : Except ErrorKind (List Byte)) :
    thenBytes (thenBytes a b) c = thenBytes a (thenBytes b c) := by
  cases a with
  | error e => rfl
  | ok bs =>
    cases b with
    | error e => rfl
    | ok cs =>
      cases c with
      | error e => rfl
      | ok ds => exact congrArg Except.ok (List.append_assoc bs cs ds)

theorem thenBytes_ok_nil (a : Except ErrorKind (List Byte)) : thenBytes a (.ok []) = a := by
  cases a with
  | error e => rfl
  | ok bs => exact congrArg Except.ok (List.append_nil bs)

theorem ok_nil_thenBytes (a : Except ErrorKind (List Byte)) : thenBytes (.ok []) a = a := by
  cases a <;> rfl

theorem decodeGroups_append (r : Rom) (g : Vector Symbol 8) (t : List Symbol) (n : Nat) :
    decodeGroups r (g.toList ++ t) (n + 1) = thenBytes (decodeGroup r g) (decodeGroups r t n) := by
  induction n with
  | zero =>
    rw [decodeGroups_succ, groupAt_append_zero, decodeGroups, decodeGroups, ok_nil_thenBytes, thenBytes_ok_nil]
  | succ n ih =>
    rw [decodeGroups_succ, ih, thenBytes_assoc, Nat.mul_succ, Nat.add_comm (8 * n), groupAt_append_add,
      ← decodeGroups_succ]

theorem length_append_group (g : Vector Symbol 8) (t : List Symbol) : (g.toList ++ t).length = t.length + 8 := by
  rw [List.length_append, Vector.length_toList, Nat.add_comm]

theorem decodeBuffer_append (r : Rom) (g : Vector Symbol 8) {t : List Symbol} (h : t.length % 8 = 0) :
    decodeBuffer r (g.toList ++ t) = thenBytes (decodeGroup r g) (decodeBuffer r t) := by
  have hlength := length_append_group g t
  have hwhole : (g.toList ++ t).length % 8 = 0 := by omega
  have hcount : (g.toList ++ t).length / 8 = t.length / 8 + 1 := by omega
  rw [decodeBuffer_of_whole r hwhole, hcount, decodeGroups_append, decodeBuffer_of_whole r h]

/-- Settles O46: the first group is decoded before the groups behind it. -/
theorem groupsDecodeInOrder : Obligations.GroupsDecodeInOrder := by
  intro r g t h
  rw [decodeBuffer_append r g h]
  cases decodeGroup r g with
  | error e => rfl
  | ok bs => cases decodeBuffer r t <;> rfl

theorem decodeBuffer_toList (r : Rom) (g : Vector Symbol 8) : decodeBuffer r g.toList = decodeGroup r g := by
  have happend := decodeBuffer_append r g (t := []) rfl
  rwa [List.append_nil, (emptyInputIsTheEmptyString r).2, thenBytes_ok_nil] at happend

/-! ### Two strings with one answer -/

/-- Settles O47: the strings are groups of two values and padding whose first packed byte is alike, and the values of
the first are those of the byte 0xFF. -/
theorem decodeIsNotInjective : Obligations.DecodeIsNotInjective := by
  intro r hr s t u
  have ht : t = (paddedGroup r 2 #v[31, 28, 0, 0, 0, 0, 0, 0]).toList := rfl
  have hu : u = (paddedGroup r 2 #v[31, 29, 0, 0, 0, 0, 0, 0]).toList := rfl
  have hslice : slice (zeroExtend (blockAt [0xFF] 0) 1) = #v[31, 28, 0, 0, 0, 0, 0, 0] := by decide
  refine ⟨?_, ?_, ?_, fun h => ?_⟩
  · rw [ht, decodeBuffer_toList, decodeGroup_paddedGroup hr _ (nb := 1) (by decide)]
    rfl
  · rw [hu, decodeBuffer_toList, decodeGroup_paddedGroup hr _ (nb := 1) (by decide)]
    rfl
  · rw [ht, ← hslice]
    rfl
  · have hentry : s 28 = s 29 := (List.cons.inj (List.cons.inj h).2).1
    exact absurd (hr.1 28 29 hentry) (by decide)

/-! ### The round trip of a buffer -/

/-- The input's bytes in a block (42_encoder.md R126). -/
def SizedBlock.data (b : SizedBlock) : List Byte := b.bytes.toList.take b.len

theorem decodeBuffer_flatMap_group {r : Rom} (hr : r.Legal) (bs : List SizedBlock)
    (hlen : ∀ b ∈ bs, 1 ≤ b.len ∧ b.len ≤ 5) : decodeBuffer r (bs.flatMap (·.group r)) = .ok (bs.flatMap (·.data)) := by
  induction bs with
  | nil => exact (emptyInputIsTheEmptyString r).2
  | cons b bs ih =>
    obtain ⟨⟨h1, h5⟩, hbs⟩ := List.forall_mem_cons.1 hlen
    have hwhole : (bs.flatMap (·.group r)).length % 8 = 0 := by rw [length_flatMap_group]; omega
    rw [List.flatMap_cons, SizedBlock.group, decodeBuffer_append r _ hwhole, ih hbs,
      aGroupDecodesToItsBlock r b.bytes b.len hr h1 h5]
    rfl

theorem take_blockAt (x : List Byte) (j : Nat) {len : Nat} (h5 : len ≤ 5) (hx : j + len ≤ x.length) :
    (blockAt x j).toList.take len = (x.drop j).take len := by
  refine List.ext_getElem (by simp; omega) fun k hk _ => ?_
  have hk : k < len := by simp at hk; omega
  have hkx : j + k < x.length := by omega
  simp [blockAt, hkx]

theorem flatMap_data_blocks (x : List Byte) {q : Nat} (hq : 5 * q ≤ x.length) :
    ((List.range q).map fun i => SizedBlock.mk (blockAt x (5 * i)) 5).flatMap (·.data) = x.take (5 * q) := by
  induction q with
  | zero => rfl
  | succ q ih =>
    rw [List.range_succ, List.map_append, List.flatMap_append, ih (by omega), Nat.mul_succ, List.take_add,
      ← take_blockAt x (5 * q) le_rfl hq]
    simp [SizedBlock.data]

theorem flatMap_data_tailBlocks (x : List Byte) :
    (tailBlocks x).flatMap (·.data) = x.drop (5 * (x.length / 5)) := by
  rw [tailBlocks]
  split
  case isTrue h => exact (List.drop_of_length_le (by omega)).symm
  case isFalse h =>
    have htake := take_blockAt x (5 * (x.length / 5)) (len := x.length % 5) (by omega) (by omega)
    rw [List.take_of_length_le (l := x.drop _) (by simp; omega)] at htake
    simpa [SizedBlock.data] using htake

/-- A buffer's blocks hold its bytes in order (42_encoder.md R126). -/
theorem flatMap_data_eq (x : List Byte) : (completeBlocks x ++ tailBlocks x).flatMap (·.data) = x := by
  rw [List.flatMap_append, completeBlocks, flatMap_data_blocks x (by omega), flatMap_data_tailBlocks,
    List.take_append_drop]

theorem len_of_mem_blocks {x : List Byte} {b : SizedBlock} (h : b ∈ completeBlocks x ++ tailBlocks x) :
    1 ≤ b.len ∧ b.len ≤ 5 := by
  obtain h | h := List.mem_append.1 h
  · rw [len_of_mem_completeBlocks h]
    decide
  · exact len_of_mem_tailBlocks h

/-- Settles O44: Encode's output is the groups of the buffer's blocks, which decode to the blocks' bytes. -/
theorem decodeUndoesEncode : Obligations.DecodeUndoesEncode := by
  intro r x hr
  rw [encodeBuffer_eq_append, ← List.flatMap_append, decodeBuffer_flatMap_group hr _ fun b => len_of_mem_blocks,
    flatMap_data_eq]

end Sys2Proof.Machine
end

section
/-! PROOFS. The host's accesses for Decode, run as steps: one group, then the groups of a string in order; and what the
host makes of the words it read. -/

namespace Sys2Proof.Machine

/-! ### The words of a group -/

/-- The words of STATUS, DOUT_HI and DOUT_LO (43_decoder.md R151). -/
def State.outputWords (s : State) : List Word :=
  [s.statusWord, (s.dout.extractLsb' 32 8).setWidth 32, s.dout.extractLsb' 0 32]

/-- The addresses of STATUS, DOUT_HI and DOUT_LO (10_state.md R32). -/
def outputAddrs : List Addr := [0x04, 0x10, 0x14]

/-- What the host makes of `words` is `answer`: its bytes, or its error's code (43_decoder.md R151). -/
def Reports (words : List Word) (answer : Except ErrorKind (List Byte)) : Prop :=
  gatherDecode words = answer.mapError ErrorKind.code

theorem Reports.of_ok {words : List Word} {bs : List Byte} (h : Reports words (.ok bs)) :
    gatherDecode words = .ok bs := h

theorem Reports.of_error {words : List Word} {e : ErrorKind} (h : Reports words (.error e)) :
    gatherDecode words = .error e.code := h

theorem block_eq_halves (w : Block) :
    (((w.extractLsb' 32 8).setWidth 32 : Word).extractLsb' 0 8 ++ w.extractLsb' 0 32 : Block) = w := by
  rw [extractLsb'_zero_setWidth_byte, BitVec.extractLsb'_append_extractLsb'_eq_extractLsb' (by rfl)]
  exact BitVec.extractLsb'_eq_self

theorem gatherDecode_of_code_ne_zero {s : State} (h : s.code ≠ 0) (more : List Word) :
    gatherDecode (s.outputWords ++ more) = .error s.code := by
  simp only [State.outputWords, List.cons_append, List.nil_append, gatherDecode, s.statusWord_code, ne_eq, h,
    not_false_eq_true, if_true]

theorem gatherDecode_of_code_eq_zero {s : State} (h : s.code = 0) (more : List Word) :
    gatherDecode (s.outputWords ++ more) =
      (gatherDecode more).map ((bytesOfBlock s.dout).toList.take s.nbytes.toNat ++ ·) := by
  simp only [State.outputWords, List.cons_append, List.nil_append, gatherDecode, s.statusWord_code, h,
    s.statusWord_nbytes, block_eq_halves, ne_eq, not_true_eq_false, if_false]
  cases gatherDecode more <;> rfl

/-- At most five bytes are in the block made of them (43_decoder.md R154). -/
theorem take_bytesOfBlock_blockOfList {bs : List Byte} (h : bs.length ≤ 5) :
    (bytesOfBlock (blockOfList bs)).toList.take bs.length = bs := by
  refine List.ext_getElem (by simpa using h) fun j hj hbs => ?_
  rw [List.getElem_take, Vector.getElem_toList, bytesOfBlock_getElem, blockByte_blockOfList]
  exact List.getD_eq_getElem _ _ hbs

theorem ErrorKind.code_ne_zero (e : ErrorKind) : e.code ≠ 0 := by cases e <;> decide

/-- After DEC the output registers report the group's answer, before whatever the host reads of the groups behind it. -/
theorem Reports.after_dec {s u : State} (hdec : exec .dec s = .next u) {more : List Word}
    {rest : Except ErrorKind (List Byte)} (h : Reports more rest) :
    Reports (u.outputWords ++ more) (thenBytes (decodeGroup s.rom s.sin) rest) := by
  unfold Reports at h ⊢
  cases exec_eq_next_iff.1 hdec with
  | decError he =>
    rw [he, gatherDecode_of_code_ne_zero (ErrorKind.code_ne_zero _)]
    rfl
  | decOk hbs =>
    have hle : _ ≤ 5 := length_le_five_of_decodeGroup hbs
    rw [hbs, gatherDecode_of_code_eq_zero rfl, h]
    dsimp only
    rw [BitVec.toNat_ofNat, Nat.mod_eq_of_lt (by omega), take_bytesOfBlock_blockOfList hle]
    cases rest <;> rfl

/-! ### The accesses of a group -/

theorem extractLsb'_zero_setWidth_symbol (x : Symbol) : (x.setWidth 32 : Word).extractLsb' 0 24 = x := by
  rw [← BitVec.setWidth_eq_extractLsb' (by decide), BitVec.setWidth_setWidth_of_le _ (by decide), BitVec.setWidth_eq]

/-- The accesses of a group: its symbols into SIN, `dec`, and the reads of the outputs (43_decoder.md R151). -/
theorem expandLines_decodeGroupLines (r : Rom) (g : Vector Symbol 8) :
    expandLines r (decodeGroupLines g) =
      (List.finRange 8).map (fun k => .write (sinAddr k) (g[k].setWidth 32)) ++
        .write 0x00 (encode .dec) :: outputAddrs.map .read := rfl

/-- The writes of a group's symbols leave the group in SIN (30_encoding.md R70). -/
theorem stepN_group_writes (s : State) (g : Vector Symbol 8) (rest : List Event) :
    stepN 8 { s with events := (List.finRange 8).map (fun k => .write (sinAddr k) (g[k].setWidth 32)) ++ rest } =
      .next { s with events := rest, sin := g } := by
  have hgroup : (Vector.ofFn fun k : Lane => g[k]) = g := Vector.ext fun k hk => by simp
  have hwrites := stepN_sin_writes s (fun k => g[k].setWidth 32) (List.finRange 8) rest
  simp only [List.length_finRange, setLanes_finRange, extractLsb'_zero_setWidth_symbol] at hwrites
  rwa [hgroup] at hwrites

theorem busRead_withQueue (s : State) (ev : List Event) (ws : List Word) :
    busRead { s with events := ev, reads := ws } = busRead s :=
  funext fun _ => (State.regWord_withReads { s with events := ev } ws _).trans (s.regWord_withEvents ev _)

/-- Reads of the addresses `as`, run as steps. -/
theorem stepN_reads {s : State} {as : List Addr} {rest : List Event} (hevents : s.events = as.map .read ++ rest) :
    stepN as.length s = .next { s with events := rest, reads := s.reads ++ as.map (busRead s) } := by
  induction as generalizing s with
  | nil =>
    have hrest : s.events = rest := hevents
    rw [List.map_nil, List.append_nil, ← hrest]
    rfl
  | cons a as ih =>
    have hstep := (aStepPerformsTheOldestAccess s (as.map Event.read ++ rest)).2.1 a hevents
    have hread := busRead_withQueue s (as.map Event.read ++ rest) (s.reads ++ [busRead s a])
    refine (stepN_succ hstep).trans ((ih rfl).trans ?_)
    simp only [hread, List.append_assoc, List.singleton_append, List.map_cons]

theorem map_busRead_eq_outputWords (s : State) : outputAddrs.map (busRead s) = s.outputWords := by
  have hstatus : regAt 0x04 = .status := by decide
  have hdoutHi : regAt 0x10 = .doutHi := by decide
  have hdoutLo : regAt 0x14 = .doutLo := by decide
  simp only [outputAddrs, List.map_cons, List.map_nil, busRead_of_regAt hstatus, busRead_of_regAt hdoutHi,
    busRead_of_regAt hdoutLo]
  rfl

/-- The accesses of one group run to their end, and the words read report the group's answer. -/
theorem stepN_decodeGroupLines {s : State} {g : Vector Symbol 8} {rest : List Event}
    (hevents : s.events = expandLines s.rom (decodeGroupLines g) ++ rest) :
    ∃ t words, stepN (expandLines s.rom (decodeGroupLines g)).length s = .next t ∧ t.events = rest ∧ t.rom = s.rom ∧
      t.reads = s.reads ++ words ∧ ∀ more answer, Reports more answer →
        Reports (words ++ more) (thenBytes (decodeGroup s.rom g) answer) := by
  rw [expandLines_decodeGroupLines, List.append_assoc, List.cons_append] at hevents
  have hwrites := stepN_group_writes s g (.write 0x00 (encode .dec) :: (outputAddrs.map .read ++ rest))
  rw [← hevents] at hwrites
  obtain ⟨u, hdec⟩ := exec_next .dec { s with events := outputAddrs.map .read ++ rest, sin := g }
  have hstep := (step_commandLine (i := .dec) rfl { s with sin := g } (outputAddrs.map .read ++ rest)).trans hdec
  obtain ⟨hrom, -, -, hqueue, hreads⟩ := exec_keeps hdec
  have hrun := stepN_add hwrites ((stepN_succ hstep).trans (stepN_reads hqueue))
  refine ⟨_, u.outputWords, hrun, rfl, hrom, ?_, fun more answer h => h.after_dec hdec⟩
  dsimp only
  rw [map_busRead_eq_outputWords, hreads]

/-! ### The accesses of a string -/

/-- A string of whole groups is built from the empty string by putting groups in front. -/
theorem wholeGroups_induction {P : List Symbol → Prop} (nil : P [])
    (cons : ∀ (g : Vector Symbol 8) (t : List Symbol), t.length % 8 = 0 → P t → P (g.toList ++ t)) {t : List Symbol}
    (h : t.length % 8 = 0) : P t := by
  obtain ⟨n, hn⟩ : ∃ n, t.length = 8 * n := ⟨t.length / 8, by omega⟩
  induction n generalizing t with
  | zero => rwa [List.length_eq_zero_iff.1 hn]
  | succ n ih =>
    have hfirst : (t.take 8).length = 8 := by rw [List.length_take]; omega
    have hrest : (t.drop 8).length = 8 * n := by rw [List.length_drop]; omega
    have hwhole : (t.drop 8).length % 8 = 0 := by omega
    have hcons := cons ⟨(t.take 8).toArray, hfirst⟩ (t.drop 8) hwhole (ih hwhole hrest)
    rwa [Vector.toList_mk, List.take_append_drop] at hcons

theorem decodeLines_append (g : Vector Symbol 8) (t : List Symbol) :
    decodeLines (g.toList ++ t) = decodeGroupLines g ++ decodeLines t := by
  have hcount : (t.length + 8) / 8 = t.length / 8 + 1 := by omega
  rw [decodeLines, length_append_group, hcount, List.range_succ_eq_map, List.flatMap_cons, List.flatMap_map,
    groupAt_append_zero, decodeLines]
  simp only [Nat.mul_succ, Nat.add_comm _ 8, groupAt_append_add]

/-- The accesses for Decode of `str`, when they come next, run to their end, and the words read report Decode's
answer. -/
def AccessesReport (str : List Symbol) : Prop :=
  ∀ (s : State) (rest : List Event), s.events = expandLines s.rom (decodeLines str) ++ rest →
    ∃ t answers, stepN (expandLines s.rom (decodeLines str)).length s = .next t ∧ t.events = rest ∧
      t.reads = s.reads ++ answers ∧ Reports answers (decodeBuffer s.rom str)

theorem accessesReport_of_whole {str : List Symbol} (h : str.length % 8 = 0) : AccessesReport str := by
  refine wholeGroups_induction (P := AccessesReport) ?_ ?_ h
  · exact fun s rest hevents => ⟨s, [], rfl, hevents, (List.append_nil _).symm, rfl⟩
  · intro g t hwhole ih s rest hevents
    rw [decodeLines_append, expandLines_append] at hevents ⊢
    rw [List.append_assoc] at hevents
    obtain ⟨s', words, hgroup, hevents', hrom, hreads, hreport⟩ := stepN_decodeGroupLines hevents
    rw [← hrom] at hevents'
    obtain ⟨u, answers, hrun, hend, hanswers, hrest⟩ := ih s' rest hevents'
    rw [hrom] at hrun hrest
    refine ⟨u, words ++ answers, ?_, hend, ?_, ?_⟩
    · rw [List.length_append]
      exact stepN_add hgroup hrun
    · rw [hanswers, hreads, List.append_assoc]
    · rw [decodeBuffer_append s.rom g hwhole]
      exact hreport answers _ hrest

/-- Settles O49: the words read report Decode's answer, whichever it is. -/
theorem theHostSequenceComputesDecode : Obligations.TheHostSequenceComputesDecode := by
  intro s str rest h accesses hevents
  obtain ⟨t, answers, hrun, hend, hreads, hreport⟩ := accessesReport_of_whole h s rest hevents
  exact ⟨t, answers, hrun, hend, hreads, fun bs hbs => (hbs ▸ hreport).of_ok, fun e he => (he ▸ hreport).of_error⟩

end Sys2Proof.Machine
end

section
/-! PROOFS. The control rules: NOP, the illegal command word, a command written to CMD, and what writes the status
fields. -/

namespace Sys2Proof

/-! ### Commands written to CMD -/

/-- A word is legal or it decodes to `illegal`, never both (30_encoding.md R65, R68). -/
theorem legal_eq_false_iff (d : Word) : legal d = false ↔ ∃ why, decode d = .illegal why := by
  refine ⟨fun h => ⟨_, decode_of_not_legal h⟩, ?_⟩
  rintro ⟨why, hillegal⟩
  by_contra hl
  have hlegal : legal d = true := Bool.eq_true_of_not_eq_false hl
  obtain ⟨-, h⟩ | ⟨-, -, h⟩ | ⟨-, h⟩ | ⟨-, h⟩ | ⟨-, h⟩ | ⟨-, h⟩ | ⟨-, h⟩ := decode_of_legal hlegal <;>
    cases h.symm.trans hillegal

namespace Machine

theorem busWrite_of_wordAddress_zero {a : Addr} (ha : a &&& 0xFC = 0) (d : Word) (s : State) :
    busWrite a d s = perform d s :=
  busWrite_cmd ((regAt_eq_cmd_iff a).2 ha) d s

/-- Settles O8: the words that are not legal are the encodings of no command, and writing one to CMD reports it. -/
theorem anIllegalWordWritesCodeSevenOnly : Obligations.AnIllegalWordWritesCodeSevenOnly := by
  refine fun d => ⟨(legal_eq_false_iff d).trans (decode_illegal_iff d), fun h s a ha => ?_⟩
  rw [busWrite_of_wordAddress_zero ha]
  exact perform_of_illegal (decode_of_not_legal h) s

/-- Settles O6: the step handles the write, the write performs its word, and the word is the command's. -/
theorem stepPerformsTheDecodedCommand : Obligations.StepPerformsTheDecodedCommand := by
  intro s a d rest i hevents ha hd
  calc step s
      = busWrite a d { s with events := rest } := step_cons hevents
    _ = perform d { s with events := rest } := busWrite_of_wordAddress_zero ha d _
    _ = exec i { s with events := rest } := perform_of_decode hd _

/-- Settles O22: the word is the encoding of NOP, and the state is that of its effect. -/
theorem nopClearsCodeOnly : Obligations.NopClearsCodeOnly :=
  ⟨decode_encode (i := .nop) rfl, fun _ => CommandEffect.nop.exec_eq⟩

/-! ### What the status fields are written by -/

/-- A well-formed command other than DEC has no error kind to report (10_state.md R29). -/
theorem CommandEffect.code_eq_zero {i : Instr} {s t : State} (h : CommandEffect s i t) (hwf : i.wf = true)
    (hdec : i ≠ .dec) : t.code = 0 := by
  cases h with
  | encIllegal hlen => exact absurd (hlen.symm.trans hwf) Bool.false_ne_true
  | decOk | decError => exact absurd rfl hdec
  | _ => rfl

/-- The decoder raises three of the error kinds (60_exceptions.md R180, 43_decoder.md R154). -/
theorem code_of_decodeGroup_error {r : Rom} {g : Vector Symbol 8} {e : ErrorKind} (h : decodeGroup r g = .error e) :
    e.code = 2 ∨ e.code = 3 ∨ e.code = 4 := by
  obtain ⟨bs, hok, -⟩ | ⟨e', herr, hkind⟩ := decodeGroup_cases r g
  · cases h.symm.trans hok
  · obtain rfl : e = e' := Except.error.inj (h.symm.trans herr)
    exact hkind.imp (congrArg _) (Or.imp (congrArg _) (congrArg _))

theorem CommandEffect.code_of_dec {s t : State} (h : CommandEffect s .dec t) :
    t.code = 0 ∨ t.code = 2 ∨ t.code = 3 ∨ t.code = 4 := by
  cases h with
  | decOk => exact .inl rfl
  | decError he => exact .inr (code_of_decodeGroup_error he)

/-- 10_state.md R28. -/
theorem exec_nbytes_eq_or {i : Instr} {s t : State} (h : exec i s = .next t) :
    t.nbytes = s.nbytes ∨ i = .dec ∨ i = .pack := by
  cases exec_eq_next_iff.1 h with
  | decOk | decError => exact .inr (.inl rfl)
  | pack => exact .inr (.inr rfl)
  | _ => exact .inl rfl

/-- 10_state.md R30. -/
theorem exec_sclass_eq_or {i : Instr} {s t : State} (h : exec i s = .next t) :
    t.sclass = s.sclass ∨ ∃ k, i = .romi k := by
  cases exec_eq_next_iff.1 h with
  | romiHit | romiPad | romiMiss => exact .inr ⟨_, rfl⟩
  | _ => exact .inl rfl

/-- An event that performs no command and is no reset leaves the status fields. -/
theorem EventEffect.status_eq {e : Event} {s t : State} (h : EventEffect s e t) (hreset : e ≠ .reset)
    (hcmd : ∀ a d, e = .write a d → a &&& 0xFC ≠ 0) :
    t.code = s.code ∧ t.nbytes = s.nbytes ∧ t.sclass = s.sclass := by
  cases h with
  | command ha | illegal ha => exact absurd ((regAt_eq_cmd_iff _).1 ha) (hcmd _ _ rfl)
  | store => exact ⟨State.storeReg_code s _ _, State.storeReg_nbytes s _ _, State.storeReg_sclass s _ _⟩
  | read => exact ⟨rfl, rfl, rfl⟩
  | reset => exact absurd rfl hreset

/-- Settles O53: the commands through their effects, the other events through theirs. -/
theorem codeReportsTheLastCommand : Obligations.CodeReportsTheLastCommand := by
  refine ⟨fun s => ⟨fun i hwf hdec => ?_, ?_, fun d why hd => ⟨_, perform_of_illegal hd s, rfl⟩, fun i t h hdec hpack => ?_,
    fun i t h hromi => ?_⟩, fun s t e rest hevents hstep => ?_⟩
  · obtain ⟨t, h⟩ := exists_commandEffect i s
    exact ⟨t, h.exec_eq, h.code_eq_zero hwf hdec⟩
  · obtain ⟨t, h⟩ := exists_commandEffect .dec s
    exact ⟨t, h.exec_eq, h.code_of_dec⟩
  · exact (exec_nbytes_eq_or h).resolve_right (not_or.2 ⟨hdec, hpack⟩)
  · exact (exec_sclass_eq_or h).resolve_right (not_exists.2 hromi)
  · have heffect : EventEffect { s with events := rest } e t := eventEffect_of_handle (step_cons hevents ▸ hstep)
    refine ⟨?_, heffect.status_eq⟩
    rintro rfl
    cases heffect
    rfl

end Machine

end Sys2Proof
end

section
/-! PROOFS. No trap and no hang: every step goes on, an idle machine holds its registers, and an error does not block
later commands. -/

namespace Sys2Proof.Machine

/-! ### Every step goes on -/

/-- No event faults or is refused (60_exceptions.md R185). -/
theorem handle_next (e : Event) (s : State) : ∃ t, s.handle e = .next t := by
  cases e with
  | write a d => exact busWrite_next a d s
  | read a => exact ⟨s.recordRead a, rfl⟩
  | reset => exact ⟨s.resetRegisters, rfl⟩

/-- No event adds to the host's accesses or drops one (log entry 1). -/
theorem EventEffect.events_eq {e : Event} {s t : State} (h : EventEffect s e t) : t.events = s.events := by
  cases h with
  | command _ _ hi =>
    obtain ⟨-, -, -, hevents, -⟩ := exec_keeps hi
    exact hevents
  | illegal => exact s.reportIllegal_events
  | store => exact s.storeReg_events _ _
  | read => exact s.recordRead_events _
  | reset => exact s.resetRegisters_events

/-- With no event left a step is idle (60_exceptions.md R192). -/
theorem step_nil {s : State} (h : s.events = []) : step s = .next s := by
  unfold step
  rw [h]

/-- Settles O19. -/
theorem anIdleStepHoldsEverything : Obligations.AnIdleStepHoldsEverything := fun _ => step_nil

/-- Settles O9: an idle step keeps the empty queue, and the effect of the oldest event leaves the events behind it. -/
theorem everyStepGoesOn : Obligations.EveryStepGoesOn := by
  intro s
  cases hevents : s.events with
  | nil => exact ⟨s, step_nil hevents, hevents⟩
  | cons e rest =>
    obtain ⟨t, ht⟩ := handle_next e { s with events := rest }
    exact ⟨t, (step_cons hevents).trans ht, (eventEffect_of_handle ht).events_eq⟩

/-! ### After an error -/

/-- Every command writes CODE and none reads it, so its effect is the same whatever CODE held (60_exceptions.md R186). -/
theorem CommandEffect.of_code {i : Instr} {s t : State} (h : CommandEffect s i t) (c : BitVec 3) :
    CommandEffect { s with code := c } i t := by
  cases h with
  | nop => exact .nop
  | enc hlen => exact .enc hlen
  | encIllegal hlen => exact .encIllegal hlen
  | decOk hbs => exact .decOk hbs
  | decError he => exact .decError he
  | slice => exact .slice
  | pack => exact .pack
  | romf => exact .romf
  | romiHit hv => exact .romiHit hv
  | romiPad hpad => exact .romiPad hpad
  | romiMiss hmiss => exact .romiMiss hmiss

/-- Settles O56: a command has the same effect whatever CODE held, and an illegal word writes CODE 7 over it. -/
theorem anErrorDoesNotBlockTheNextCommand : Obligations.AnErrorDoesNotBlockTheNextCommand := by
  intro d s c
  cases hd : decode d with
  | command i =>
    obtain ⟨t, h⟩ := exists_commandEffect i s
    rw [perform_of_decode hd, perform_of_decode hd, h.exec_eq, (h.of_code c).exec_eq]
  | illegal why =>
    rw [perform_of_illegal hd, perform_of_illegal hd]
    rfl

end Sys2Proof.Machine
end

section
/-! PROOFS. Reset zeroes the interface registers, and ENC ignores the bytes beyond its length. -/

namespace Sys2Proof.Machine

/-! ### Reset -/

/-- With every interface register 0, the word of each is 0 (70_reset_and_hazards.md R200). -/
theorem State.regWord_resetRegisters (s : State) (r : Reg) : s.resetRegisters.regWord r = 0 := by
  cases r with
  | cmd | unmapped => rfl
  | status => simp [State.regWord, State.statusWord]
  | dinHi | dinLo | doutHi | doutLo => simp [State.regWord]
  | val k | sin k | sout k => simp [State.regWord]

/-- Settles O20: the step is the reset of the state without its oldest event, after which every register's word is 0. -/
theorem aResetClearsEveryRegister : Obligations.AResetClearsEveryRegister := by
  intro s rest hevents
  exact ⟨State.resetRegisters { s with events := rest }, step_cons hevents, rfl, rfl, rfl, rfl, rfl, rfl, rfl, rfl,
    fun k => by simp, fun a => State.regWord_resetRegisters _ (regAt a)⟩

/-! ### The bytes beyond a length -/

/-- A short block is its first bytes and then 0, so the other bytes do not matter (42_encoder.md R122). -/
theorem zeroExtend_congr {b b' : Vector Byte 5} {len : Nat} (h : ∀ j : Fin 5, j.val < len → b[j] = b'[j]) :
    zeroExtend b len = zeroExtend b' len := by
  ext1 j hj
  rw [zeroExtend_getElem, zeroExtend_getElem]
  split
  next hlt => exact h ⟨j, hj⟩ hlt
  next => rfl

/-- The group of a block is that of its zero-extension (42_encoder.md R123). -/
theorem encodeBlock_congr (r : Rom) {b b' : Vector Byte 5} {len : Nat} (h : ∀ j : Fin 5, j.val < len → b[j] = b'[j]) :
    encodeBlock r b len = encodeBlock r b' len := by
  rw [encodeBlock_eq_paddedGroup, encodeBlock_eq_paddedGroup, zeroExtend_congr h]

/-- Settles O33: both groups are that of the same short block in the same ROM. -/
theorem encIgnoresTheBytesBeyondItsLength : Obligations.EncIgnoresTheBytesBeyondItsLength := by
  intro s s' len h1 h5 hrom hbytes
  have hlen : lenInRange len = true := (lenInRange_iff len).2 ⟨h1, h5⟩
  have hblock : ∀ j : Fin 5, j.val < len.toNat → (bytesOfBlock s.din)[j] = (bytesOfBlock s'.din)[j] := by
    simpa using hbytes
  refine ⟨_, _, (CommandEffect.enc hlen).exec_eq, (CommandEffect.enc hlen).exec_eq, ?_⟩
  show encodeBlock s.rom (bytesOfBlock s.din) len.toNat = encodeBlock s'.rom (bytesOfBlock s'.din) len.toNat
  rw [hrom, encodeBlock_congr s'.rom hblock]

end Sys2Proof.Machine
end
